-- ==== Sys2Proof/Word.lean ====
section
/-! DEFINITION. The two bit-vector types of GRBT-CORE: the 32-bit register and command word, and the 8-bit cell. -/

namespace Sys2Proof

/-- A register or command word: XLEN = 32 bits (R8, R21, R80). -/
abbrev Word := BitVec 32

/-- A cell of BM, a byte of the Access Code or of a constant table: 8 bits (R30, R24, R31). -/
abbrev Byte := BitVec 8

end Sys2Proof
end

