-- ==== Sys2Proof/Syntax.lean ====
section
/-! DEFINITION. The ten commands of GRBT-CMD revision 1, one constructor per row of spec/opcode_table.json. -/

namespace Sys2Proof

/-- The commands of R82. A command word holds no operand (R81): every operand is the content of a fixed register (R83), so
no constructor has a field. -/
inductive Instr where
  /-- A2H, word 1: air to host (R100). -/
  | a2h
  /-- H2A, word 2: host to air (R101). -/
  | h2a
  /-- LFSR, word 3: redundancy of a cyclic code (R111). -/
  | lfsr
  /-- ACGEN, word 4: Access Code synthesis (R130). -/
  | acgen
  /-- ACVFY, word 5: exact Access Code match (R132). -/
  | acvfy
  /-- WHT, word 6: whitening and dewhitening (R143). -/
  | wht
  /-- UF13, word 7: FEC 1/3 majority decode (R150). -/
  | uf13
  /-- UF23, word 8: FEC 2/3 decode without correction (R155). -/
  | uf23
  /-- F23G, word 9: FEC 2/3 check bits (R156). -/
  | f23g
  /-- CRC, word 10: CRC-16 (R166). -/
  | crc
deriving DecidableEq, Repr

end Sys2Proof
end

