-- ==== Sys2Proof/Decode.lean ====
section
/-! DEFINITION. The command word (format C of R80): the decoder, total on all 2^32 words and refusing by name (R85, R89), and
after it the encoder, both from the table of R82. -/

namespace Sys2Proof

/-- Why a word is illegal (R85). -/
inductive Illegal where
  /-- Field ZERO (bits 31:4) is not zero. -/
  | zeroFieldSet
  /-- Field OP names no command: 0x0 or 0xB to 0xF. -/
  | reservedOp
deriving DecidableEq, Repr

/-- What the decoder answers: the command, or why there is none. -/
inductive Decoded where
  | legal (i : Instr)
  | illegal (why : Illegal)
deriving DecidableEq, Repr

/-- Field ZERO, bits 31:4 (R80). -/
def zeroField (w : Word) : BitVec 28 := w.extractLsb' 4 28

/-- Field OP, bits 3:0 (R80). -/
def opField (w : Word) : BitVec 4 := w.extractLsb' 0 4

/-- The `case` of R89 over the operation codes of R82. -/
def decodeOp (op : BitVec 4) : Decoded :=
  match op.toNat with
  | 0x1 => .legal .a2h
  | 0x2 => .legal .h2a
  | 0x3 => .legal .lfsr
  | 0x4 => .legal .acgen
  | 0x5 => .legal .acvfy
  | 0x6 => .legal .wht
  | 0x7 => .legal .uf13
  | 0x8 => .legal .uf23
  | 0x9 => .legal .f23g
  | 0xA => .legal .crc
  | _ => .illegal .reservedOp

/-- The decoder: it "looks at all 32 bits of one word and needs nothing else" (R90); the ZERO field is tested first (R89). -/
def decode (w : Word) : Decoded :=
  if zeroField w ≠ 0 then .illegal .zeroFieldSet else decodeOp (opField w)

/-- The word of a command, from the column "word" of R82. -/
def encode : Instr → Word
  | .a2h => 0x00000001
  | .h2a => 0x00000002
  | .lfsr => 0x00000003
  | .acgen => 0x00000004
  | .acvfy => 0x00000005
  | .wht => 0x00000006
  | .uf13 => 0x00000007
  | .uf23 => 0x00000008
  | .f23g => 0x00000009
  | .crc => 0x0000000A

/-- The command as an option, for callers that do not ask why a word is illegal. -/
def Decoded.instr? : Decoded → Option Instr
  | .legal i => some i
  | .illegal _ => none

/-- The word that the bits `w` of an instruction of `nbits` bits stand for: the bits above `nbits` are zero, and a command
is one 32-bit word handed to CMD whole, so there is no byte order (R80, R65; log 15). -/
def wordOfBits (nbits w : Nat) : Word := BitVec.ofNat 32 (w % 2 ^ nbits)

/-- The command the decoder reads from the bits `w`, numbered as spec/opcode_table.json numbers them; every command is one
word of 32 bits (R80), so longer instructions are refused (log 15). -/
def decodeTableWord (nbits w : Nat) : Option Instr :=
  if nbits ≤ 32 then (decode (wordOfBits nbits w)).instr? else none

end Sys2Proof
end

