-- ==== Sys2Proof/Machine/Bits.lean ====
section
/-! DEFINITION. The helpers on bits and bit sequences: Unpack and Pack (R16), Rev8 and Maj (R17), the two readings of an
integer as bits in air order (R51), and the byte a bit is stored as (R67). A bit sequence is a list of Booleans (R11). -/

namespace Sys2Proof.Machine

/-- The cell value of a bit: 0x00 or 0x01 (R67). -/
def cellOfBit (b : Bool) : Byte := if b then 1 else 0

/-- The bit a cell stands for. Used only after the cell check, so on 0 and 1 alone (R58, R92; log 11). -/
def bitOfCell (c : Byte) : Bool := c != 0

/-- The sum of `b[i] << i`: the integer a bit sequence stands for in air order, bit 0 least significant (R51, R100). -/
def natOfBits : List Bool → Nat
  | [] => 0
  | b :: bs => b.toNat + 2 * natOfBits bs

/-- The bits 0 to w-1 of a register, least significant first (R51, R101). -/
def bitsOfWord (v : Word) (w : Nat) : List Bool := (List.range w).map v.getLsbD

/-- Rev8(b)[i] = b[7-i] (R17). -/
def rev8 (b : Byte) : Byte := b.reverse

/-- Maj(a, b, c) = (a and b) or (b and c) or (c and a) (R17). -/
def maj (a b c : Bool) : Bool := (a && b) || (b && c) || (c && a)

/-- The eight bits of a byte in packed order: bit 7 first on the air (R16, R52). -/
def bitsOfByte (b : Byte) : List Bool := (List.range 8).map fun m => b.getLsbD (7 - m)

/-- Unpack(B): `result[8*b + m] = B[b][7-m]` (R16). -/
def unpack (bs : List Byte) : List Bool := bs.flatMap bitsOfByte

/-- The byte of eight bits in packed order: the sum of `s[m] << (7-m)` (R16). -/
def byteOfBits (s : List Bool) : Byte :=
  BitVec.ofNat 8 (((List.range 8).map fun m => (s.getD m false).toNat <<< (7 - m)).sum)

/-- Pack(s): `result[b]` is the byte of `s[8*b .. 8*b+7]` (R16). -/
def pack (s : List Bool) : List Byte :=
  (List.range (s.length / 8)).map fun b => byteOfBits (s.drop (8 * b))

end Sys2Proof.Machine
end

