-- ==== Sys2Proof/Config.lean ====
section
/-! DEFINITION. The parameters of R8, as one structure that the model takes, and the one free value of the spec (the
content of a cell after reset, R33). The default values stand in Machine/Tables.lean. -/

namespace Sys2Proof

/-- The parameters of R8 that are not fixed: "The model takes the parameters of the table below as arguments". The widths
and lengths R8 and R31 fix are in the types. A machine is built with one value of this structure and never changes it
(R31; log 4). -/
structure Params where
  /-- N_CELLS: the number of cells of BM (R8, R30; D8). -/
  nCells : Nat
  /-- R_MAX: the longest register command LFSR accepts (R8; D13). -/
  rMax : Nat
  /-- G_AC[0..34]: entry j is the coefficient of x^j (R121). -/
  gAc : Vector Bool 35
  /-- PN[0..8]: the pseudo-noise sequence in packed order (R122). -/
  pn : Vector Byte 9
  /-- TRL0: the trailer byte when the selecting bit is 0 (R123). -/
  trl0 : Byte
  /-- TRL1: the trailer byte when the selecting bit is 1 (R123). -/
  trl1 : Byte
  /-- BRK1: the extra bits set together with TRL1 (R123). -/
  brk1 : Byte
  /-- PRE0: the preamble when the first sync-word bit is 0 (R124). -/
  pre0 : Byte
  /-- PRE1: the preamble when the first sync-word bit is 1 (R124). -/
  pre1 : Byte
  /-- WHITEN_SEQ[0..126] (R141). -/
  whitenSeq : Vector Bool 127
  /-- WHITEN_IDX[0..63], keyed by the low six clock bits, each value in 0..126 (R142). -/
  whitenIdx : Vector (Fin 127) 64
  /-- FEC23_TAPS: the feedback pattern of the FEC 2/3 encoder (R157). -/
  fec23Taps : BitVec 5
deriving DecidableEq, Repr

/-- The constraints the spec puts on the parameters, beyond those their types say: `1 ≤ N_CELLS ≤ 2^32` and `R_MAX ≥ 34`
(R8), and "A replacement `PN` must keep `PN[0][7:4] = 0`" (R122). -/
abbrev Params.Legal (p : Params) : Prop :=
  1 ≤ p.nCells ∧ p.nCells ≤ 2 ^ 32 ∧ 34 ≤ p.rMax ∧ p.pn[0].extractLsb' 4 4 = 0

namespace Config

/-- The content of a cell that nothing has written since the last reset: "each cell holds an arbitrary 8-bit value, which
may differ from cell to cell and from reset to reset" (R33, R210). `freeCell k a` is the draw for cell `a` after the
`k`-th reset; the constant has no body, so nothing can be proved of its value (log 2). -/
opaque freeCell : Nat → Nat → Byte

end Config

end Sys2Proof
end

