-- ==== Sys2Proof/Machine/HostMove.lean ====
section
/-! DEFINITION. The moves of the host, the machine's only inputs (R18, R196). A host program is a finite list of them
(R27). -/

namespace Sys2Proof.Machine

/-- One move of the host (R18). Register numbers and cell addresses are plain naturals: "Numbers 12 and above name no
register" (R29), and a cell access with `a ≥ N_CELLS` is "no move" (R196). -/
inductive HostMove where
  /-- HostWriteReg(n, v): R34. -/
  | writeReg (n : Nat) (v : Word)
  /-- HostReadReg(n): R34. -/
  | readReg (n : Nat)
  /-- HostWriteCell(a, v): R62. -/
  | writeCell (a : Nat) (v : Byte)
  /-- HostReadCell(a): R62. -/
  | readCell (a : Nat)
  /-- HostCommand(w), which is HostWriteReg(8, w): R18, R25. -/
  | command (w : Word)
  /-- HostReset: R210. -/
  | reset
deriving DecidableEq, Repr

end Sys2Proof.Machine
end

