-- ==== Sys2Proof/Machine/Tables.lean ====
section
/-! DEFINITION. The default values of the parameters of R8 (R121 to R124, R141, R142, R157). Every one is an OPEN parameter (D8,
D9, D13): the machine of `State.reset` has these, and `State.resetWith` takes any other (log 4, log 5). -/

namespace Sys2Proof.Machine.Tables

/-- A row of table entries, each written 0 or 1, as bits. -/
def bitRow (r : List Nat) : List Bool := r.map (· == 1)

/-- The entries of G_AC[0..34] (R121). Entries 0 to 33 are read; entry 34 is the implicit leading one. -/
def gAcRows : List Bool :=
  bitRow [1, 0, 0, 1, 0, 1, 0, 1, 1, 0] ++
  bitRow [1, 1, 1, 1, 0, 0, 1, 0, 0, 0] ++
  bitRow [1, 1, 1, 0, 1, 0, 1, 0, 0, 0] ++
  bitRow [0, 1, 1, 0, 1]

/-- The entries of WHITEN_SEQ[0..126] (R141). -/
def whitenSeqRows : List Bool :=
  bitRow [1, 1, 1, 0, 0, 0, 1, 1, 1, 0, 1, 1, 0, 0, 0, 1] ++
  bitRow [0, 1, 0, 0, 1, 0, 1, 1, 1, 1, 1, 0, 1, 0, 1, 0] ++
  bitRow [1, 0, 0, 0, 0, 1, 0, 1, 1, 0, 1, 1, 1, 1, 0, 0] ++
  bitRow [1, 1, 1, 0, 0, 1, 0, 1, 0, 1, 1, 0, 0, 1, 1, 0] ++
  bitRow [0, 0, 0, 0, 1, 1, 0, 1, 1, 0, 1, 0, 1, 1, 1, 0] ++
  bitRow [1, 0, 0, 0, 1, 1, 0, 0, 1, 0, 0, 0, 1, 0, 0, 0] ++
  bitRow [0, 0, 0, 1, 0, 0, 1, 0, 0, 1, 1, 0, 1, 0, 0, 1] ++
  bitRow [1, 1, 1, 0, 1, 1, 1, 0, 0, 0, 0, 1, 1, 1, 1]

/-- The entries of WHITEN_IDX[0..63], keyed by the low six clock bits (R142). -/
def whitenIdxRows : List (Fin 127) :=
  [99, 85, 17, 50, 102, 58, 108, 45] ++
  [92, 62, 32, 118, 88, 11, 80, 2] ++
  [37, 69, 55, 8, 20, 40, 74, 114] ++
  [15, 106, 30, 78, 53, 72, 28, 26] ++
  [68, 7, 39, 113, 105, 77, 71, 25] ++
  [84, 49, 57, 44, 61, 117, 10, 1] ++
  [123, 124, 22, 125, 111, 23, 42, 126] ++
  [6, 112, 76, 24, 48, 43, 116, 0]

/-- The column "default" of R8. -/
def defaults : Params where
  nCells := 4096
  rMax := 64
  gAc := ⟨gAcRows.toArray, rfl⟩
  pn := #v[0x03, 0xF2, 0xA3, 0x3D, 0xD6, 0x9B, 0x12, 0x1C, 0x10]
  trl0 := 0xD5
  trl1 := 0x2A
  brk1 := 0x03
  pre0 := 0x50
  pre1 := 0xA0
  whitenSeq := ⟨whitenSeqRows.toArray, rfl⟩
  whitenIdx := ⟨whitenIdxRows.toArray, rfl⟩
  fec23Taps := 0x15

end Sys2Proof.Machine.Tables
end

