-- ==== Sys2Proof/Machine/State.lean ====
section
/-! DEFINITION. The state of GRBT-CORE as plain data, the state after reset, and the reasons a step can stop. -/

namespace Sys2Proof.Machine

/-- The state of the block (R21, R24, R26, R30, R33), the parameters it was built with (R8, R31), and two
fields of the model's own. CMD stores nothing (R25), and there is no hidden state (R32). -/
structure State where
  /-- The parameters of R8: N_CELLS, R_MAX and the constant tables, which no agent can change (R31; log 4). -/
  params : Params
  /-- x[0] SRC: cell address of the first input cell (R21). -/
  src : Word
  /-- x[1] DST: cell address of the first output cell (R21). -/
  dst : Word
  /-- x[2] LEN: a length in cells or a bit count (R21). -/
  len : Word
  /-- x[3] A0: first scalar operand (R21). -/
  a0 : Word
  /-- x[4] A1: second scalar operand (R21). -/
  a1 : Word
  /-- x[5] GP: cell address of the generator array (R21). -/
  gp : Word
  /-- x[6] RES: the last scalar result (R21, R23). -/
  res : Word
  /-- STATUS.ERR, bits 3:0 of STATUS; bits 31:4 are not stored and read as zero (R26; log 9). -/
  err : BitVec 4
  /-- The Access Code register, 72 bits in packed order, AC[0] uppermost (R24; log 9). -/
  ac : BitVec 72
  /-- BM: the cells written since the last reset, addresses strictly rising (R30; log 3). -/
  mem : List Host.Cell
  /-- The model's own: how many HostResets have been taken, the counter the free draw of the cells is applied to (log 2). -/
  resets : Nat
  /-- The model's own: the host's moves still to come, first one first (R27; log 1). -/
  moves : List HostMove
deriving DecidableEq, Repr

/-- The state right after power-up of a machine with parameters `p` (R8, R33, R210): registers, STATUS and AC zero, no cell
written, no host move pending. -/
def State.resetWith (p : Params) : State where
  params := p
  src := 0
  dst := 0
  len := 0
  a0 := 0
  a1 := 0
  gp := 0
  res := 0
  err := 0
  ac := 0
  mem := []
  resets := 0
  moves := []

/-- The same with the default parameters of R8 (log 4, log 5). -/
def State.reset : State := State.resetWith Tables.defaults

/-- The codes of STATUS.ERR (R181). These are the block's own reports, next states of the machine, not stops of the model. -/
inductive ErrCode where
  /-- ERR_OP: the command word is illegal. -/
  | op
  /-- ERR_LEN: a length, width or count operand is outside what the command allows. -/
  | len
  /-- ERR_BOUNDS: a range reaches beyond the last cell of BM. -/
  | bounds
  /-- ERR_OVL: the write range shares a cell with a read range. -/
  | ovl
  /-- ERR_CELL: a cell in a read range holds a value other than 0 or 1. -/
  | cell
deriving DecidableEq, Repr

/-- Why a step stops. No command stops: what R182 calls a fault is a next state with STATUS.ERR set. -/
inductive Fault where
  /-- Raised by `hostWriteCell` and `hostReadCell` when the host names a cell outside BM, which R196 calls "no move". Safe:
  the hardware has no such move, so nothing true of it is contradicted (log 7). -/
  | noSuchCell
deriving DecidableEq, Repr

/-- Why a step has no meaning. -/
inductive Refusal where
  /-- Raised by `exec` for a command without a meaning yet; no arm is left that does. Safe: the model stops. -/
  | notModelled (mnemonic : String)
deriving DecidableEq, Repr

end Sys2Proof.Machine
end

