-- ==== Sys2Proof/Machine/Ops.lean ====
section
/-! DEFINITION. The named operations over memory and registers, the entry of a fault (R183) and the only way back from one,
the reset (R187, R210). -/

namespace Sys2Proof.Machine

/-! ### BM as sorted data -/

/-- The value written to address `a` since the last reset, if any. -/
def lookup : List Host.Cell → Nat → Option Byte
  | [], _ => none
  | (b, v) :: m, a => if a = b then some v else lookup m a

/-- Writes one cell, keeping the addresses strictly rising. -/
def store : List Host.Cell → Nat → Byte → List Host.Cell
  | [], a, v => [(a, v)]
  | (b, u) :: m, a, v =>
    if a < b then (a, v) :: (b, u) :: m
    else if a = b then (a, v) :: m
    else (b, u) :: store m a v

/-- Writes consecutive cells from `a` on, one bit each. -/
def storeBits : List Host.Cell → Nat → List Bool → List Host.Cell
  | m, _, [] => m
  | m, a, b :: bs => storeBits (store m a (cellOfBit b)) (a + 1) bs

/-- The canonical form of the data of a BM of `n` cells: addresses strictly rising, all of them cells of BM (R30; log 3). An
address that is not listed holds no written value, so no entry can repeat it. -/
abbrev Memory.wf (n : Nat) (m : List Host.Cell) : Prop :=
  m.Pairwise (fun p q => p.1 < q.1) ∧ ∀ p ∈ m, p.1 < n

/-! ### Reads and writes of the state -/

/-- BM[a]: what was written last since the last reset, else the free draw of that reset (R13, R33, R63; log 2). -/
def State.cell (s : State) (a : Nat) : Byte := (lookup s.mem a).getD (Config.freeCell s.resets a)

/-- BM[a] <- v. -/
def State.writeCell (s : State) (a : Nat) (v : Byte) : State := { s with mem := store s.mem a v }

/-- MemRead(a, n), as bits (R13). Used only after the checks of R55 to R58. -/
def State.memRead (s : State) (a n : Nat) : List Bool :=
  (List.range n).map fun i => bitOfCell (s.cell (a + i))

/-- MemWrite(a, len(bits), bits) (R13). -/
def State.memWrite (s : State) (a : Nat) (bits : List Bool) : State := { s with mem := storeBits s.mem a bits }

/-- x[RES] <- v: the whole register is written (R23, R100). -/
def State.setRes (s : State) (v : Word) : State := { s with res := v }

/-- AC[0..8] <- B[0..8], all nine bytes at once (R24, R130). -/
def State.setAc (s : State) (v : BitVec 72) : State := { s with ac := v }

/-- Byte b (0 ≤ b ≤ 8) of a 72-bit value in packed order, byte 0 uppermost (R12, R24, R52). -/
def packedByte (v : BitVec 72) (b : Nat) : Byte := v.extractLsb' (8 * (8 - b)) 8

/-- Nine bytes in packed order as one 72-bit value (R24, R52). -/
def packedOfBytes (bs : List Byte) : BitVec 72 :=
  bs.foldl (fun acc b => (acc <<< 8) ||| b.setWidth 72) 0

/-- STATUS as the host reads it: ERR in bits 3:0, bits 31:4 zero (R26). -/
def State.status (s : State) : Word := s.err.setWidth 32

/-- ACW0, ACW1 and ACW2: the words of R24, big-endian (R53), for j = 0, 1, 2. -/
def State.acWord (s : State) (j : Nat) : Word :=
  match j with
  | 0 => packedByte s.ac 0 ++ packedByte s.ac 1 ++ packedByte s.ac 2 ++ packedByte s.ac 3
  | 1 => packedByte s.ac 4 ++ packedByte s.ac 5 ++ packedByte s.ac 6 ++ packedByte s.ac 7
  | _ => packedByte s.ac 8 ++ (0 : BitVec 24)

/-! ### Faults and the reset -/

/-- The value of STATUS.ERR for a code (R181). -/
def errValue : ErrCode → BitVec 4
  | .op => 1
  | .len => 2
  | .bounds => 3
  | .ovl => 4
  | .cell => 5

/-- raise Fault(code): "STATUS.ERR <- code; nothing else changes" (R183, R14). -/
def State.raise (s : State) (c : ErrCode) : State := { s with err := errValue c }

/-- The halted state (R186). -/
def State.halted (s : State) : Bool := s.err != 0

/-- HostReset, the one reset and the only way out of the halted state (R187, R210): every register, STATUS and AC become
zero, and every cell becomes a fresh free draw; "the constant tables keep their fixed values". The moves the host has
still to make are the host's, and stay (log 1). -/
def State.hostReset (s : State) : State :=
  { State.resetWith s.params with resets := s.resets + 1, moves := s.moves }

end Sys2Proof.Machine
end

