-- ==== Sys2Proof/Machine/Operands.lean ====
section
/-! DEFINITION. The operand forms: ranges of cells (R55, R92) from the base registers, and the low bits of a scalar that a
command uses (R84, D26). -/

namespace Sys2Proof.Machine

/-- A range (start, count) of cells, exact (R55). -/
structure Range where
  start : Nat
  count : Nat
deriving DecidableEq, Repr

/-- The bounds check of one range in a BM of `nCells` cells: it passes when `a + n ≤ N_CELLS`, the empty range included
(R56). -/
def Range.inBounds (nCells : Nat) (r : Range) : Bool := decide (r.start + r.count ≤ nCells)

/-- Two ranges share a cell (R57); an empty range shares none. -/
def Range.shares (w r : Range) : Bool :=
  decide (0 < w.count) && decide (0 < r.count) &&
  decide (w.start < r.start + r.count) && decide (r.start < w.start + w.count)

/-- Every cell of the range holds 0 or 1 (R58). -/
def State.binaryOn (s : State) (r : Range) : Bool :=
  (List.range r.count).all fun i => decide (s.cell (r.start + i) ≤ 1)

/-- The range of `n` cells from SRC (R92). -/
def State.srcRange (s : State) (n : Nat) : Range := ⟨s.src.toNat, n⟩

/-- The range of `n` cells from DST (R92). -/
def State.dstRange (s : State) (n : Nat) : Range := ⟨s.dst.toNat, n⟩

/-- The range of `n` cells from GP (R92). -/
def State.gpRange (s : State) (n : Nat) : Range := ⟨s.gp.toNat, n⟩

/-- MemRead on a range (R13). -/
def State.readRange (s : State) (r : Range) : List Bool := s.memRead r.start r.count

/-- The LAP: bits 23:0 of A0 (R125, R130). -/
def lapOf (v : Word) : BitVec 24 := v.extractLsb' 0 24

/-- The key of the whitening index table: bits 5:0 of the clock (R140, R143). -/
def clockKey (v : Word) : Nat := (v.extractLsb' 0 6).toNat

/-- The UAP: bits 7:0 of A0 (R165, R166). -/
def uapOf (v : Word) : Byte := v.extractLsb' 0 8

end Sys2Proof.Machine
end

