-- ==== Sys2Proof/Machine/Flags.lean ====
section
/-! DEFINITION. The block has no condition codes and no flags (R28). The one status field a command can set is STATUS.ERR, and
this file computes it: the checks of R56 to R58 in the order of R184, and "check, then commit" (R59). -/

namespace Sys2Proof.Machine

/-- The fault a command reports, if any: ERR_LEN, ERR_BOUNDS, ERR_OVL, ERR_CELL in this order (R184). `lenOk` says whether
the command's own length conditions hold. -/
def firstFault (s : State) (lenOk : Bool) (reads writes : List Range) : Option ErrCode :=
  if !lenOk then some .len
  else if !(reads ++ writes).all (Range.inBounds s.params.nCells) then some .bounds
  else if writes.any (fun w => reads.any w.shares) then some .ovl
  else if !reads.all s.binaryOn then some .cell
  else none

/-- "Check, then commit" (R59): a command that fails a check only raises its fault, else all its outputs are written. -/
def checkThenCommit (s : State) (lenOk : Bool) (reads writes : List Range) (commit : State) : State :=
  match firstFault s lenOk reads writes with
  | some c => s.raise c
  | none => commit

end Sys2Proof.Machine
end

