-- ==== Sys2Proof/Machine/Lfsr.lean ====
section
/-! DEFINITION. The LFSR-polynomial engine and command LFSR (R110 to R115). -/

namespace Sys2Proof.Machine

/-- One pass of the outer loop of R110, as the simultaneous assignment R110 gives: `cw'[j] = cw[j-1] ^ (fb & g[j])` and
`cw'[0] = fb & g[0]`, with `fb = d[i] ^ cw[r-1]`. -/
def lfsrStep (g : List Bool) (d : Bool) (cw : List Bool) : List Bool :=
  let fb := d ^^ cw.getLastD false
  List.zipWith (fun below gj => below ^^ (fb && gj)) (false :: cw.dropLast) g

/-- LfsrEncode(d, r, g) (R110): from all zeros (R112), the data bit of the highest index first (R113). The array `g` holds
exactly r coefficients; the leading one is implicit (R113). -/
def lfsrEncode (d : List Bool) (r : Nat) (g : List Bool) : List Bool :=
  d.foldr (lfsrStep g) (List.replicate r false)

/-- LFSR (R111): n - k redundancy bits of k data bits at SRC, generator at GP, to DST. -/
def execLfsr (s : State) : Host.Outcome State Fault Refusal :=
  let n := s.a0.toNat
  let k := s.a1.toNat
  let r := n - k
  let src := s.srcRange k
  let gp := s.gpRange r
  let dst := s.dstRange r
  .next (checkThenCommit s (decide (k < n) && decide (r ≤ s.params.rMax)) [src, gp] [dst]
    (s.memWrite dst.start (lfsrEncode (s.readRange src) r (s.readRange gp))))

end Sys2Proof.Machine
end

