-- ==== Sys2Proof/Machine/AccessCode.lean ====
section
/-! DEFINITION. Access Code synthesis and matching: commands ACGEN and ACVFY (R120 to R134). The steps are those of R125. -/

namespace Sys2Proof.Machine

/-- Step 1 of R125: the whole 24-bit LAP reversed, built bytewise (R126). -/
def acReverse (a : BitVec 24) : BitVec 24 :=
  rev8 (a.extractLsb' 0 8) ++ rev8 (a.extractLsb' 8 8) ++ rev8 (a.extractLsb' 16 8)

/-- Steps 2 and 3 of R125: the 24 bits of L over bytes 4 to 7, and the trailer chosen by L[0] (R127). -/
def acScatter (p : Params) (l : BitVec 24) : List Byte :=
  let b4 : Byte := (l.extractLsb' 22 2).setWidth 8
  let b5 : Byte := l.extractLsb' 14 8
  let b6 : Byte := l.extractLsb' 6 8
  let b7 : Byte := (l.extractLsb' 0 6).setWidth 8 <<< 2
  if l.getLsbD 0 then [0, 0, 0, 0, b4, b5, b6, b7 ||| p.brk1, p.trl1]
  else [0, 0, 0, 0, b4, b5, b6, b7, p.trl0]

/-- Step 4 of R125: the first pseudo-noise pass, over bytes 4 to 8. -/
def acFirstPass (p : Params) (bs : List Byte) : List Byte :=
  bs.take 4 ++ List.zipWith (· ^^^ ·) (bs.drop 4) (p.pn.toList.drop 4)

/-- Step 5 of R125: the 30 data bits, air bits 38 to 67 (R128). -/
def acData (bs : List Byte) : List Bool := ((unpack bs).drop 38).take 30

/-- Steps 6 and 7 of R125: 34 redundancy bits into air bits 4 to 37, air bits 0 to 3 zero, the rest unchanged. -/
def acReassemble (p : Params) (bs : List Byte) : List Byte :=
  pack (List.replicate 4 false ++ lfsrEncode (acData bs) 34 (p.gAc.toList.take 34) ++ (unpack bs).drop 38)

/-- Step 8 of R125: the second pseudo-noise pass, over all nine bytes. -/
def acSecondPass (p : Params) (bs : List Byte) : List Byte := List.zipWith (· ^^^ ·) bs p.pn.toList

/-- Step 9 of R125: the preamble, chosen by the first sync-word bit, B[0][3]. -/
def acPreamble (p : Params) : List Byte → List Byte
  | [] => []
  | b0 :: bs => (b0 ||| if b0.getLsbD 3 then p.pre1 else p.pre0) :: bs

/-- AcGen(lap) (R125), nine bytes. -/
def acBytes (p : Params) (a : BitVec 24) : List Byte :=
  acPreamble p (acSecondPass p (acReassemble p (acFirstPass p (acScatter p (acReverse a)))))

/-- AcGen(lap) as the 72 bits of the Access Code register; step 0 masks the LAP (R125, R24). -/
def acGen (p : Params) (v : Word) : BitVec 72 := packedOfBytes (acBytes p (lapOf v))

/-- Air bit t (0 ≤ t ≤ 71) of a 72-bit value in packed order: `B[t div 8][7 - (t mod 8)]` (R52). -/
def airBit (v : BitVec 72) (t : Nat) : Bool := (packedByte v (t / 8)).getLsbD (7 - t % 8)

/-- ACGEN (R130): AC <- AcGen(A0). It raises no fault of its own. -/
def execAcgen (s : State) : Host.Outcome State Fault Refusal :=
  .next (checkThenCommit s true [] [] (s.setAc (acGen s.params s.a0)))

/-- ACVFY (R132): RES <- 1 when the 72 cells from SRC are the Access Code of A0, bit for bit, else 0. -/
def execAcvfy (s : State) : Host.Outcome State Fault Refusal :=
  let src := s.srcRange 72
  .next (checkThenCommit s true [src] []
    (s.setRes (if s.readRange src = (List.range 72).map (airBit (acGen s.params s.a0)) then 1 else 0)))

end Sys2Proof.Machine
end

