-- ==== Sys2Proof/Machine/BitOrder.lean ====
section
/-! DEFINITION. Bit-order conversion: commands A2H and H2A (R100 to R103). -/

namespace Sys2Proof.Machine

/-- A2H (R100): RES <- the integer that LEN cells from SRC stand for. -/
def execA2h (s : State) : Host.Outcome State Fault Refusal :=
  let w := s.len.toNat
  let src := s.srcRange w
  .next (checkThenCommit s (decide (w ≤ 32)) [src] []
    (s.setRes (BitVec.ofNat 32 (natOfBits (s.readRange src)))))

/-- H2A (R101): the low LEN bits of A0 go to LEN cells from DST, least significant first. -/
def execH2a (s : State) : Host.Outcome State Fault Refusal :=
  let w := s.len.toNat
  let dst := s.dstRange w
  .next (checkThenCommit s (decide (w ≤ 32)) [] [dst]
    (s.memWrite dst.start (bitsOfWord s.a0 w)))

end Sys2Proof.Machine
end

