-- ==== Sys2Proof/Machine/Crc16.lean ====
section
/-! DEFINITION. CRC-16: command CRC (R165 to R170). -/

namespace Sys2Proof.Machine

/-- Bit 0 of a 16-bit register as a 16-bit value, to be moved to a tap position (R165). -/
def lowBit16 (reg : BitVec 16) : BitVec 16 := (BitVec.ofBool (reg.getLsbD 0)).setWidth 16

/-- One step of R165, line by line: shift and insert, tap at bit 5, tap at bit 12. -/
def crcStep (reg : BitVec 16) (b : Bool) : BitVec 16 :=
  let top := reg.getLsbD 15
  let inserted := (reg <<< 1) ||| (BitVec.ofBool (top ^^ b)).setWidth 16
  let tapped := inserted ^^^ (lowBit16 inserted <<< 5)
  tapped ^^^ (lowBit16 tapped <<< 12)

/-- Crc16(s, uap) (R165): the seed in the low eight bits, cells in air order. -/
def crc16 (bits : List Bool) (uap : Byte) : BitVec 16 := bits.foldl crcStep (uap.setWidth 16)

/-- CRC (R166): RES <- the remainder over LEN cells from SRC with seed A0[7:0], bits 31:16 zero. -/
def execCrc (s : State) : Host.Outcome State Fault Refusal :=
  let src := s.srcRange s.len.toNat
  .next (checkThenCommit s true [src] [] (s.setRes ((crc16 (s.readRange src) (uapOf s.a0)).setWidth 32)))

end Sys2Proof.Machine
end

