-- ==== Sys2Proof/Machine/Fec13.lean ====
section
/-! DEFINITION. FEC 1/3 majority-vote decoder: command UF13 (R150 to R152). -/

namespace Sys2Proof.Machine

/-- The `m` votes over groups of three bits: `Maj(s[3i], s[3i+1], s[3i+2])` (R150). -/
def fec13Decode (m : Nat) (bits : List Bool) : List Bool :=
  (List.range m).map fun i =>
    maj (bits.getD (3 * i) false) (bits.getD (3 * i + 1) false) (bits.getD (3 * i + 2) false)

/-- UF13 (R150): LEN cells from SRC to LEN / 3 cells from DST. -/
def execUf13 (s : State) : Host.Outcome State Fault Refusal :=
  let n := s.len.toNat
  let m := n / 3
  let src := s.srcRange n
  let dst := s.dstRange m
  .next (checkThenCommit s (decide (n % 3 = 0)) [src] [dst]
    (s.memWrite dst.start (fec13Decode m (s.readRange src))))

end Sys2Proof.Machine
end

