-- ==== Sys2Proof/Machine/Fec23.lean ====
section
/-! DEFINITION. FEC 2/3 (15,10): decoder UF23, which corrects nothing (R155, R158), and encoder F23G (R156, R157). -/

namespace Sys2Proof.Machine

/-- The data bits of `nb` blocks of 15: `s[15*b + j]` for b outer, j = 0..9 inner; the check bits are dropped (R155). -/
def fec23Decode (nb : Nat) (bits : List Bool) : List Bool :=
  (List.range nb).flatMap fun b => (List.range 10).map fun j => bits.getD (15 * b + j) false

/-- UF23 (R155): LEN cells from SRC to 10 × LEN / 15 cells from DST. -/
def execUf23 (s : State) : Host.Outcome State Fault Refusal :=
  let n := s.len.toNat
  let nb := n / 15
  let src := s.srcRange n
  let dst := s.dstRange (10 * nb)
  .next (checkThenCommit s (decide (n % 15 = 0)) [src] [dst]
    (s.memWrite dst.start (fec23Decode nb (s.readRange src))))

/-- One step of the 5-bit register: shift towards bit 0, add the taps (FEC23_TAPS) when the feedback bit is 1 (R156). -/
def fec23Step (taps : BitVec 5) (reg : BitVec 5) (d : Bool) : BitVec 5 :=
  let fb := d ^^ reg.getLsbD 0
  let shifted := reg >>> 1
  if fb then shifted ^^^ taps else shifted

/-- The register after all data bits, bit 0 of the data first, from zero (R156, R157). -/
def fec23Register (taps : BitVec 5) (d : List Bool) : BitVec 5 := d.foldl (fec23Step taps) 0

/-- F23G (R156): the five check bits of the ten data cells from SRC, least significant first, to DST. -/
def execF23g (s : State) : Host.Outcome State Fault Refusal :=
  let src := s.srcRange 10
  let dst := s.dstRange 5
  .next (checkThenCommit s true [src] [dst]
    (s.memWrite dst.start ((List.range 5).map (fec23Register s.params.fec23Taps (s.readRange src)).getLsbD)))

end Sys2Proof.Machine
end

