-- ==== Sys2Proof/Machine/Whitening.lean ====
section
/-! DEFINITION. Whitening and dewhitening: command WHT (R140 to R147). -/

namespace Sys2Proof.Machine

/-- The start index: `(WHITEN_IDX[clock[5:0]] + skip) mod 127`, exact (R140, R91). -/
def whitenStart (p : Params) (clock skip : Word) : Nat :=
  ((p.whitenIdx.toList.getD (clockKey clock) 0).val + skip.toNat) % 127

/-- The loop of R140 from a given index: one table entry per bit, the index advancing by one modulo 127. -/
def whitenFrom (p : Params) : Nat → List Bool → List Bool
  | _, [] => []
  | idx, b :: bs => (b ^^ p.whitenSeq.toList.getD idx false) :: whitenFrom p ((idx + 1) % 127) bs

/-- Whiten(s, clock, skip) (R140). -/
def whiten (p : Params) (bits : List Bool) (clock skip : Word) : List Bool :=
  whitenFrom p (whitenStart p clock skip) bits

/-- WHT (R143): LEN cells from SRC, whitened with clock A0 and skip A1, to DST. -/
def execWht (s : State) : Host.Outcome State Fault Refusal :=
  let n := s.len.toNat
  let src := s.srcRange n
  let dst := s.dstRange n
  .next (checkThenCommit s true [src] [dst] (s.memWrite dst.start (whiten s.params (s.readRange src) s.a0 s.a1)))

end Sys2Proof.Machine
end

