-- ==== Sys2Proof/Machine/Dispatch.lean ====
section
/-! DEFINITION. The dispatch of R89: one arm per command, one call of its meaning. -/

namespace Sys2Proof.Machine

/-- The named command of R89 at a block that is not halted; the test of STATUS.ERR stands before it, in `issue` (log 6). -/
def exec (i : Instr) (s : State) : Host.Outcome State Fault Refusal :=
  match i with
  | .a2h => Sys2Proof.Machine.execA2h s
  | .h2a => Sys2Proof.Machine.execH2a s
  | .lfsr => Sys2Proof.Machine.execLfsr s
  | .acgen => Sys2Proof.Machine.execAcgen s
  | .acvfy => Sys2Proof.Machine.execAcvfy s
  | .wht => Sys2Proof.Machine.execWht s
  | .uf13 => Sys2Proof.Machine.execUf13 s
  | .uf23 => Sys2Proof.Machine.execUf23 s
  | .f23g => Sys2Proof.Machine.execF23g s
  | .crc => Sys2Proof.Machine.execCrc s

end Sys2Proof.Machine
end

