-- ==== Sys2Proof/Machine/HostPort.lean ====
section
/-! DEFINITION. The host's side of the block: what each host move does (R18, R34, R62, R89, R210) and what it gives back. -/

namespace Sys2Proof.Machine

/-- Step(w) of R89: a halted block ignores the word (R186), an illegal word raises ERR_OP and changes nothing else (R85), a
legal one runs its command. -/
def issue (w : Word) (s : State) : Host.Outcome State Fault Refusal :=
  if s.halted then .next s
  else
    match decode w with
    | .illegal _ => .next (s.raise .op)
    | .legal i => exec i s

/-- HostWriteReg(n, v) (R34). -/
def hostWriteReg (n : Nat) (v : Word) (s : State) : Host.Outcome State Fault Refusal :=
  match n with
  | 0 => .next { s with src := v }
  | 1 => .next { s with dst := v }
  | 2 => .next { s with len := v }
  | 3 => .next { s with a0 := v }
  | 4 => .next { s with a1 := v }
  | 5 => .next { s with gp := v }
  | 8 => issue v s
  | _ => .next s

/-- The value HostReadReg(n) returns (R34). -/
def hostReadReg (n : Nat) (s : State) : Word :=
  match n with
  | 0 => s.src
  | 1 => s.dst
  | 2 => s.len
  | 3 => s.a0
  | 4 => s.a1
  | 5 => s.gp
  | 6 => s.res
  | 7 => s.status
  | 9 => s.acWord 0
  | 10 => s.acWord 1
  | 11 => s.acWord 2
  | _ => 0

/-- HostWriteCell(a, v): any 8-bit value, for `a < N_CELLS` (R62); beyond, no such move exists (R196; log 7). -/
def hostWriteCell (a : Nat) (v : Byte) (s : State) : Host.Outcome State Fault Refusal :=
  if a < s.params.nCells then .next (s.writeCell a v) else .fault .noSuchCell

/-- HostReadCell(a) changes nothing, for `a < N_CELLS` (R62); beyond, no such move exists (R196; log 7). -/
def hostReadCell (a : Nat) (s : State) : Host.Outcome State Fault Refusal :=
  if a < s.params.nCells then .next s else .fault .noSuchCell

/-- What one host move does to the block (R18, R196). A register read has no side effect (R34). -/
def performMove (m : HostMove) (s : State) : Host.Outcome State Fault Refusal :=
  match m with
  | .writeReg n v => hostWriteReg n v s
  | .readReg _ => .next s
  | .writeCell a v => hostWriteCell a v s
  | .readCell a => hostReadCell a s
  | .command w => hostWriteReg 8 w s
  | .reset => .next s.hostReset

/-- What the host gets back from a move made in state s (column "what the host gets back" of R196; log 8): a register's
value, a cell's value, or nothing. -/
def hostReply (m : HostMove) (s : State) : Option Word :=
  match m with
  | .readReg n => some (hostReadReg n s)
  | .readCell a => if a < s.params.nCells then some ((s.cell a).setWidth 32) else none
  | .writeReg _ _ | .writeCell _ _ | .command _ | .reset => none

/-- The next host move is taken off the list and performed; with none pending the block is idle and keeps all its state
(R20, R27, R191; log 13). -/
def takeMove (s : State) : Host.Outcome State Fault Refusal :=
  match s.moves with
  | [] => .next s
  | m :: rest => performMove m { s with moves := rest }

/-- s with the word of an instruction as the host's next move (log 1). -/
def State.issueNext (s : State) (w : Word) : State := { s with moves := .command w :: s.moves }

end Sys2Proof.Machine
end

