-- ==== Sys2Proof/Machine/Step.lean ====
section
/-! DEFINITION. One step of the machine: the next host move. -/

namespace Sys2Proof.Machine

/-- One step: the next move of the host, performed as one atomic step (R20, R63, R89). -/
def step (s : State) : Host.Outcome State Fault Refusal := takeMove s

/-- s with the instruction of bits `w` as the word the host issues next: there is no fetch, and "A command word is taken
from the host's write to CMD at the moment of the write" (R65; log 1). -/
def State.withFetchWord (s : State) (nbits w : Nat) : State := s.issueNext (wordOfBits nbits w)

end Sys2Proof.Machine
end

