-- ==== Sys2Proof/Machine/Footprint.lean ====
section
/-! DEFINITION. The table of R182 and R83 as data: which lengths each command allows, which cells it reads and which it
writes. The meanings do not use this file; claims compare the meanings with it. -/

namespace Sys2Proof.Machine

/-- The cell address `a` lies in the range (R55). -/
abbrev Range.has (r : Range) (a : Nat) : Prop := r.start ≤ a ∧ a < r.start + r.count

/-- The operand registers each command reads: "reads" of spec/opcode_table.json (R83). -/
def operandRegs (i : Instr) (s : State) : List Word :=
  match i with
  | .a2h => [s.src, s.len]
  | .h2a => [s.a0, s.len, s.dst]
  | .lfsr => [s.src, s.a0, s.a1, s.gp, s.dst]
  | .acgen => [s.a0]
  | .acvfy => [s.src, s.a0]
  | .wht => [s.src, s.a0, s.len, s.a1, s.dst]
  | .uf13 | .uf23 => [s.src, s.len, s.dst]
  | .f23g => [s.src, s.dst]
  | .crc => [s.src, s.len, s.a0]

/-- The read ranges of each command: "read_ranges" of spec/opcode_table.json (R83, R92). -/
def readRanges (i : Instr) (s : State) : List Range :=
  match i with
  | .a2h | .wht | .uf13 | .uf23 | .crc => [⟨s.src.toNat, s.len.toNat⟩]
  | .lfsr => [⟨s.src.toNat, s.a1.toNat⟩, ⟨s.gp.toNat, s.a0.toNat - s.a1.toNat⟩]
  | .acvfy => [⟨s.src.toNat, 72⟩]
  | .f23g => [⟨s.src.toNat, 10⟩]
  | .h2a | .acgen => []

/-- The write range of each command: "write_ranges" of spec/opcode_table.json (R83, R92). -/
def writeRanges (i : Instr) (s : State) : List Range :=
  match i with
  | .h2a | .wht => [⟨s.dst.toNat, s.len.toNat⟩]
  | .lfsr => [⟨s.dst.toNat, s.a0.toNat - s.a1.toNat⟩]
  | .uf13 => [⟨s.dst.toNat, s.len.toNat / 3⟩]
  | .uf23 => [⟨s.dst.toNat, 10 * (s.len.toNat / 15)⟩]
  | .f23g => [⟨s.dst.toNat, 5⟩]
  | .a2h | .acgen | .acvfy | .crc => []

/-- The rows ERR_LEN of R182, negated: the lengths each command allows. -/
def lengthLegal (i : Instr) (s : State) : Bool :=
  match i with
  | .a2h | .h2a => decide (s.len.toNat ≤ 32)
  | .lfsr => decide (s.a1.toNat < s.a0.toNat) && decide (s.a0.toNat - s.a1.toNat ≤ s.params.rMax)
  | .uf13 => decide (s.len.toNat % 3 = 0)
  | .uf23 => decide (s.len.toNat % 15 = 0)
  | .acgen | .acvfy | .wht | .f23g | .crc => true

/-- The rows ERR_BOUNDS of R182, negated: no range reaches beyond the last cell (R56). -/
abbrev rangesInside (i : Instr) (s : State) : Prop :=
  ∀ r ∈ readRanges i s ++ writeRanges i s, r.start + r.count ≤ s.params.nCells

/-- Two ranges share a cell, in the words of R57: "wn > 0 and rn > 0 and wa < ra + rn and ra < wa + wn". -/
abbrev Range.overlaps (w r : Range) : Prop :=
  0 < w.count ∧ 0 < r.count ∧ w.start < r.start + r.count ∧ r.start < w.start + w.count

/-- The rows ERR_OVL of R182, negated: no write range shares a cell with a read range (R57). -/
abbrev noOverlap (i : Instr) (s : State) : Prop :=
  ∀ w ∈ writeRanges i s, ∀ r ∈ readRanges i s, ¬ w.overlaps r

/-- The row ERR_CELL of R182, negated: every cell of every read range holds 0 or 1 (R58). -/
abbrev cellsBinary (i : Instr) (s : State) : Prop :=
  ∀ r ∈ readRanges i s, ∀ j < r.count, s.cell (r.start + j) ≤ 1

/-- The request is well formed: the command runs (R180, R182). -/
abbrev accepts (i : Instr) (s : State) : Prop :=
  lengthLegal i s ∧ rangesInside i s ∧ noOverlap i s ∧ cellsBinary i s

end Sys2Proof.Machine
end

