-- ==== Sys2Proof/Safety.lean ====
section
/-! DEFINITION. What counts as a legal state and as an untroubled run, in the terms the claims use. -/

namespace Sys2Proof.Machine

/-- A legal state: its parameters meet the constraints of R8, BM's data is in canonical form and lies inside BM (R30;
log 3), and STATUS.ERR holds a code of R181 ("values 6 to 15 never occur", R26). -/
abbrev State.Inv (s : State) : Prop := s.params.Legal ∧ Memory.wf s.params.nCells s.mem ∧ s.err ≤ 5

/-- No fault since reset: the block is not halted (R26, R186). -/
abbrev State.running (s : State) : Prop := s.err = 0

/-- A word is illegal: field ZERO is set, or OP is 0x0 or 0xB to 0xF (R85). -/
abbrev illegalWord (w : Word) : Prop :=
  w.toNat / 16 ≠ 0 ∨ w.toNat % 16 = 0 ∨ 0xB ≤ w.toNat % 16

end Sys2Proof.Machine
end

