-- ==== Sys2Proof/WellFormed.lean ====
section
/-! DEFINITION. Which terms of the syntax the machine has. A command has no operand field, so every command is well formed
(R81); a host move is well formed when the cell it names exists (R62, R196). -/

namespace Sys2Proof

/-- Every command is well formed: the word holds "no register numbers, no addresses, no lengths and no modes" (R81). -/
def Instr.wellFormed : Instr → Bool
  | .a2h | .h2a | .lfsr | .acgen | .acvfy | .wht | .uf13 | .uf23 | .f23g | .crc => true

namespace Machine

/-- A cell move of a machine with `nCells` cells is well formed when `a < N_CELLS` (R62); "cell access with a ≥ N_CELLS"
is "no move" (R196). Every register number is a move (R34). -/
def HostMove.wellFormed (nCells : Nat) : HostMove → Bool
  | .writeCell a _ | .readCell a => decide (a < nCells)
  | .writeReg _ _ | .readReg _ | .command _ | .reset => true

/-- A host program whose every move exists. -/
def programWellFormed (nCells : Nat) (ms : List HostMove) : Bool := ms.all (HostMove.wellFormed nCells)

end Machine

end Sys2Proof
end

