-- ==== Sys2Proof/Certificates/Slice0/Obligations.lean ====
section
/-! DEFINITION. The statements for the provers. Each docstring names the rule of spec/ it formalises. -/

open Sys2Proof Sys2Proof.Machine

/-! ### The words the statements use -/

namespace Sys2Proof.Claims

/-- The bit a cell holds, for a binary cell. -/
abbrev bitAt (s : State) (a : Nat) : Bool := decide (s.cell a = 1)

/-- The `n` bits from cell `a` on, first cell first (air order, R51). -/
def bitsAt (s : State) (a n : Nat) : List Bool := (List.range n).map fun i => bitAt s (a + i)

/-- The range (a, n) stays inside BM (R56). -/
abbrev inside (s : State) (a n : Nat) : Prop := a + n ≤ s.params.nCells

/-- Every cell of the range (a, n) holds 0 or 1 (R58). -/
abbrev binary (s : State) (a n : Nat) : Prop := ∀ j < n, s.cell (a + j) ≤ 1

/-- The ranges (wa, wn) and (ra, rn) share no cell, in the words of R57. -/
abbrev apart (wa wn ra rn : Nat) : Prop := ¬(0 < wn ∧ 0 < rn ∧ wa < ra + rn ∧ ra < wa + wn)

/-- From s to t exactly the cells a, a+1, ..., a+n-1 are written, cell a+j with the bit `f j`; every other cell reads as
before, and no register, status, Access Code or other field of the state changes. -/
def storesExactly (s t : State) (a n : Nat) (f : Nat → Bool) : Prop :=
  t = { s with mem := t.mem } ∧ (∀ j < n, t.cell (a + j) = if f j then 1 else 0) ∧
    ∀ x, x < a ∨ a + n ≤ x → t.cell x = s.cell x

/-- The polynomial over GF(2) whose coefficient of x^i is bit i (R113, R114). -/
noncomputable def polyOf (bs : List Bool) : Polynomial (ZMod 2) :=
  ∑ i ∈ Finset.range bs.length, if bs.getD i false then (Polynomial.X : Polynomial (ZMod 2)) ^ i else 0

/-- The ten rows of R159: the parity for the data word with only bit i set. -/
def parityRows : List (BitVec 5) := [0x0B, 0x16, 0x07, 0x0E, 0x1C, 0x13, 0x0D, 0x1A, 0x1F, 0x15]

/-- One step of the CRC register in the closed form of R167. -/
def crcClosedStep (reg : BitVec 16) (b : Bool) : BitVec 16 :=
  (reg <<< 1) ^^^ (if reg.getLsbD 15 ^^ b then 0x1021 else 0)

/-- One step of the CRC register as R165 writes it: shift, set bit 0, then the taps at bits 5 and 12. -/
def crcRuleStep (reg : BitVec 16) (b : Bool) : BitVec 16 :=
  let shifted := (reg <<< 1) ||| (if reg.getLsbD 15 ^^ b then 1 else 0)
  let five := if shifted.getLsbD 0 then shifted ^^^ 0x0020 else shifted
  if five.getLsbD 0 then five ^^^ 0x1000 else five

/-- One step of the FEC 2/3 register as R156 writes it, with the given taps. -/
def fecRuleStep (taps : BitVec 5) (reg : BitVec 5) (d : Bool) : BitVec 5 :=
  if d ^^ reg.getLsbD 0 then (reg >>> 1) ^^^ taps else reg >>> 1

/-- The 30 unscrambled data bits u of R131: the 24 LAP bits, then 110010 or 001101 as bit 23 says. -/
def lapData (lap : Word) : List Bool :=
  (List.range 24).map lap.getLsbD ++
    (if lap.getLsbD 23 then [true, true, false, false, true, false] else [false, false, true, true, false, true])

/-- The 7-bit register of R145 after `t` steps from the 6-bit key `c`: bit 6 starts as 1, and each step shifts up by one,
bit 6 going to bit 0 and being added to what comes into bit 4. -/
def whitenRegister (c : BitVec 6) : Nat → BitVec 7
  | 0 => 1#1 ++ c
  | t + 1 =>
    let r := whitenRegister c t
    (r <<< 1) ^^^ (if r.getLsbD 6 then 0x11 else 0)

end Sys2Proof.Claims

open Sys2Proof.Claims

/-! ### Encoding -/

/-- The words of R82: each of the ten decodes to its command. -/
def Obligations.SampleWordsDecode : Prop :=
  decode 0x00000001 = .legal .a2h ∧ decode 0x00000002 = .legal .h2a ∧ decode 0x00000003 = .legal .lfsr ∧
  decode 0x00000004 = .legal .acgen ∧ decode 0x00000005 = .legal .acvfy ∧ decode 0x00000006 = .legal .wht ∧
  decode 0x00000007 = .legal .uf13 ∧ decode 0x00000008 = .legal .uf23 ∧ decode 0x00000009 = .legal .f23g ∧
  decode 0x0000000A = .legal .crc

/-- Decoding and encoding agree in both directions (R80, R82): every command is read back from its word, and no other word
is read as that command, so no bit of a word is dropped. -/
def Obligations.DecodeEncodeAgree : Prop :=
  (∀ i : Instr, i.wellFormed = true → decode (encode i) = .legal i) ∧
  (∀ (w : Word) (i : Instr), decode w = .legal i → w = encode i)

/-- R85: which words are illegal, that exactly ten of the 2^32 words are legal, and that an illegal word issued to a block
that is not halted raises ERR_OP and changes nothing else. -/
def Obligations.IllegalWordRaisesErrOp : Prop :=
  (∀ w : Word, (∃ why, decode w = .illegal why) ↔ illegalWord w) ∧
  (∃ ws : List Word, ws.length = 10 ∧ ws.Nodup ∧ ∀ w, w ∈ ws ↔ ¬ illegalWord w) ∧
  (∀ (s : State) (w : Word), s.err = 0 → illegalWord w → performMove (.command w) s = .next { s with err := 1 })

/-! ### Dispatch -/

/-- R89 and R25, through the step of the model, which takes the host's next move off its list (the list is the model's own
form of R27, log 1). A halted block ignores the word; a word that decodes to a well-formed command is executed by `exec`,
with nothing else around it; an illegal word raises ERR_OP; and for every state and every word there is one next state. A
write to register 8 is the same as a command. -/
def Obligations.StepRunsDecodedCommand : Prop :=
  ∀ (s : State) (w : Word) (rest : List HostMove),
    (s.moves = .command w :: rest ∨ s.moves = .writeReg 8 w :: rest) →
      (s.err ≠ 0 → step s = .next { s with moves := rest }) ∧
      (∀ i : Instr, s.err = 0 → decode w = .legal i → i.wellFormed = true →
        step s = exec i { s with moves := rest }) ∧
      (s.err = 0 → (∃ why, decode w = .illegal why) → step s = .next { s with moves := rest, err := 1 }) ∧
      (∃ t, step s = .next t)

/-- A word placed as the host's next move is the one the very next step runs (the model's own way of placing it, log 1).
-/
def Obligations.PlacedWordRunsNext : Prop :=
  ∀ (s : State) (i : Instr), s.err = 0 → step (s.withFetchWord 32 (encode i).toNat) = exec i s

/-- R186: while STATUS.ERR is not zero every word written to CMD is ignored, and the host's register and cell moves still
work. -/
def Obligations.HaltedBlockIgnoresCommands : Prop :=
  ∀ s : State, s.err ≠ 0 →
    (∀ w, performMove (.command w) s = .next s ∧ performMove (.writeReg 8 w) s = .next s) ∧
    (∀ n v, n ≤ 5 → ∃ t, performMove (.writeReg n v) s = .next t ∧ hostReadReg n t = v ∧ t.err = s.err) ∧
    (∀ n, performMove (.readReg n) s = .next s ∧ hostReply (.readReg n) s = some (hostReadReg n s)) ∧
    (∀ a v, a < s.params.nCells →
      ∃ t, performMove (.writeCell a v) s = .next t ∧ t.cell a = v ∧ t.err = s.err) ∧
    (∀ a, a < s.params.nCells →
      performMove (.readCell a) s = .next s ∧ hostReply (.readCell a) s = some ((s.cell a).setWidth 32))

/-- STATUS.ERR keeps the code of the first fault: only a reset changes it once it is not zero (R26, R187). -/
def Obligations.ErrorCodeIsSticky : Prop :=
  ∀ s t : State, step s = .next t → s.err ≠ 0 → (∀ rest, s.moves ≠ .reset :: rest) → t.err = s.err

/-- R182, R183, R184: which fault an issued word reports and that nothing but STATUS.ERR changes with it; a request that
meets no row of the table is carried out and reports none; and what R182 says cannot occur. -/
def Obligations.FaultCausesAndPriority : Prop :=
  (∀ (s : State) (w : Word), s.err = 0 →
    (illegalWord w → performMove (.command w) s = .next { s with err := 1 }) ∧
    ∀ i : Instr, w = encode i →
      (¬ lengthLegal i s → performMove (.command w) s = .next { s with err := 2 }) ∧
      (lengthLegal i s → ¬ rangesInside i s → performMove (.command w) s = .next { s with err := 3 }) ∧
      (lengthLegal i s → rangesInside i s → ¬ noOverlap i s →
        performMove (.command w) s = .next { s with err := 4 }) ∧
      (lengthLegal i s → rangesInside i s → noOverlap i s → ¬ cellsBinary i s →
        performMove (.command w) s = .next { s with err := 5 }) ∧
      (accepts i s → ∃ t, performMove (.command w) s = .next t ∧ t.err = 0)) ∧
  (∀ s : State, accepts .acgen s ∧ noOverlap .h2a s ∧ cellsBinary .h2a s ∧ noOverlap .a2h s ∧
    noOverlap .acvfy s ∧ noOverlap .crc s)

/-! ### The ten commands: what each does, where it faults, and its frame -/

/-- R100: A2H. -/
def Obligations.A2hReadsInteger : Prop :=
  ∀ s : State,
    (32 < s.len.toNat → exec .a2h s = .next { s with err := 2 }) ∧
    (s.len.toNat ≤ 32 → ¬ inside s s.src.toNat s.len.toNat → exec .a2h s = .next { s with err := 3 }) ∧
    (s.len.toNat ≤ 32 → inside s s.src.toNat s.len.toNat → ¬ binary s s.src.toNat s.len.toNat →
      exec .a2h s = .next { s with err := 5 }) ∧
    (s.len.toNat ≤ 32 → inside s s.src.toNat s.len.toNat → binary s s.src.toNat s.len.toNat →
      exec .a2h s = .next { s with
        res := BitVec.ofNat 32 (∑ i ∈ Finset.range s.len.toNat, (s.cell (s.src.toNat + i)).toNat * 2 ^ i) })

/-- R101: H2A. -/
def Obligations.H2aWritesBits : Prop :=
  ∀ s : State,
    (32 < s.len.toNat → exec .h2a s = .next { s with err := 2 }) ∧
    (s.len.toNat ≤ 32 → ¬ inside s s.dst.toNat s.len.toNat → exec .h2a s = .next { s with err := 3 }) ∧
    (s.len.toNat ≤ 32 → inside s s.dst.toNat s.len.toNat →
      ∃ t, exec .h2a s = .next t ∧
        storesExactly s t s.dst.toNat s.len.toNat fun j => decide (s.a0.toNat / 2 ^ j % 2 = 1))

/-- R111: LFSR, with n = A0, k = A1 and r = n - k. The redundancy is that of `LfsrEncodeIsShiftRegister`. -/
def Obligations.LfsrWritesRedundancy : Prop :=
  ∀ (s : State) (n k r : Nat), n = s.a0.toNat → k = s.a1.toNat → r = n - k →
    (n ≤ k ∨ s.params.rMax < r → exec .lfsr s = .next { s with err := 2 }) ∧
    (k < n → r ≤ s.params.rMax →
      ¬(inside s s.src.toNat k ∧ inside s s.gp.toNat r ∧ inside s s.dst.toNat r) →
        exec .lfsr s = .next { s with err := 3 }) ∧
    (k < n → r ≤ s.params.rMax → inside s s.src.toNat k → inside s s.gp.toNat r → inside s s.dst.toNat r →
      ¬(apart s.dst.toNat r s.src.toNat k ∧ apart s.dst.toNat r s.gp.toNat r) →
        exec .lfsr s = .next { s with err := 4 }) ∧
    (k < n → r ≤ s.params.rMax → inside s s.src.toNat k → inside s s.gp.toNat r → inside s s.dst.toNat r →
      apart s.dst.toNat r s.src.toNat k → apart s.dst.toNat r s.gp.toNat r →
      ¬(binary s s.src.toNat k ∧ binary s s.gp.toNat r) → exec .lfsr s = .next { s with err := 5 }) ∧
    (k < n → r ≤ s.params.rMax → inside s s.src.toNat k → inside s s.gp.toNat r → inside s s.dst.toNat r →
      apart s.dst.toNat r s.src.toNat k → apart s.dst.toNat r s.gp.toNat r →
      binary s s.src.toNat k → binary s s.gp.toNat r →
        ∃ t, exec .lfsr s = .next t ∧
          storesExactly s t s.dst.toNat r fun j =>
            (lfsrEncode (bitsAt s s.src.toNat k) r (bitsAt s s.gp.toNat r)).getD j false)

/-- R130: ACGEN writes AC, all of it, and nothing else. The value is that of `AccessCodeLayout`. -/
def Obligations.AcgenWritesAccessCode : Prop :=
  ∀ s : State, exec .acgen s = .next { s with ac := acGen s.params s.a0 }

/-- R132: ACVFY compares 72 cells exactly; a mismatch is no fault. -/
def Obligations.AcvfyComparesExactly : Prop :=
  ∀ s : State,
    (¬ inside s s.src.toNat 72 → exec .acvfy s = .next { s with err := 3 }) ∧
    (inside s s.src.toNat 72 → ¬ binary s s.src.toNat 72 → exec .acvfy s = .next { s with err := 5 }) ∧
    (inside s s.src.toNat 72 → binary s s.src.toNat 72 →
      (∀ t < 72, bitAt s (s.src.toNat + t) = airBit (acGen s.params s.a0) t) →
        exec .acvfy s = .next { s with res := 1 }) ∧
    (inside s s.src.toNat 72 → binary s s.src.toNat 72 →
      (∃ t < 72, bitAt s (s.src.toNat + t) ≠ airBit (acGen s.params s.a0) t) →
        exec .acvfy s = .next { s with res := 0 })

/-- R143 with the closed form of R140: WHT. -/
def Obligations.WhtWhitens : Prop :=
  ∀ s : State,
    (¬(inside s s.src.toNat s.len.toNat ∧ inside s s.dst.toNat s.len.toNat) →
      exec .wht s = .next { s with err := 3 }) ∧
    (inside s s.src.toNat s.len.toNat → inside s s.dst.toNat s.len.toNat →
      ¬ apart s.dst.toNat s.len.toNat s.src.toNat s.len.toNat → exec .wht s = .next { s with err := 4 }) ∧
    (inside s s.src.toNat s.len.toNat → inside s s.dst.toNat s.len.toNat →
      apart s.dst.toNat s.len.toNat s.src.toNat s.len.toNat → ¬ binary s s.src.toNat s.len.toNat →
        exec .wht s = .next { s with err := 5 }) ∧
    (inside s s.src.toNat s.len.toNat → inside s s.dst.toNat s.len.toNat →
      apart s.dst.toNat s.len.toNat s.src.toNat s.len.toNat → binary s s.src.toNat s.len.toNat →
        ∃ t, exec .wht s = .next t ∧
          storesExactly s t s.dst.toNat s.len.toNat fun j =>
            (bitAt s (s.src.toNat + j)) ^^
              s.params.whitenSeq.toList.getD
                (((s.params.whitenIdx.toList.getD (s.a0.toNat % 64) 0).val + s.a1.toNat + j) % 127) false)

/-- R150: UF13, each output bit saying whether at least two of three input cells are 1. -/
def Obligations.Uf13TakesMajority : Prop :=
  ∀ (s : State) (m : Nat), m = s.len.toNat / 3 →
    (s.len.toNat % 3 ≠ 0 → exec .uf13 s = .next { s with err := 2 }) ∧
    (s.len.toNat % 3 = 0 → ¬(inside s s.src.toNat s.len.toNat ∧ inside s s.dst.toNat m) →
      exec .uf13 s = .next { s with err := 3 }) ∧
    (s.len.toNat % 3 = 0 → inside s s.src.toNat s.len.toNat → inside s s.dst.toNat m →
      ¬ apart s.dst.toNat m s.src.toNat s.len.toNat → exec .uf13 s = .next { s with err := 4 }) ∧
    (s.len.toNat % 3 = 0 → inside s s.src.toNat s.len.toNat → inside s s.dst.toNat m →
      apart s.dst.toNat m s.src.toNat s.len.toNat → ¬ binary s s.src.toNat s.len.toNat →
        exec .uf13 s = .next { s with err := 5 }) ∧
    (s.len.toNat % 3 = 0 → inside s s.src.toNat s.len.toNat → inside s s.dst.toNat m →
      apart s.dst.toNat m s.src.toNat s.len.toNat → binary s s.src.toNat s.len.toNat →
        ∃ t, exec .uf13 s = .next t ∧
          storesExactly s t s.dst.toNat m fun i =>
            decide (2 ≤ (s.cell (s.src.toNat + 3 * i)).toNat + (s.cell (s.src.toNat + (3 * i + 1))).toNat +
              (s.cell (s.src.toNat + (3 * i + 2))).toNat))

/-- R155: UF23 copies the ten data cells of each block of 15 and looks at no check cell but to see that it is binary. -/
def Obligations.Uf23CopiesDataBits : Prop :=
  ∀ (s : State) (m : Nat), m = 10 * (s.len.toNat / 15) →
    (s.len.toNat % 15 ≠ 0 → exec .uf23 s = .next { s with err := 2 }) ∧
    (s.len.toNat % 15 = 0 → ¬(inside s s.src.toNat s.len.toNat ∧ inside s s.dst.toNat m) →
      exec .uf23 s = .next { s with err := 3 }) ∧
    (s.len.toNat % 15 = 0 → inside s s.src.toNat s.len.toNat → inside s s.dst.toNat m →
      ¬ apart s.dst.toNat m s.src.toNat s.len.toNat → exec .uf23 s = .next { s with err := 4 }) ∧
    (s.len.toNat % 15 = 0 → inside s s.src.toNat s.len.toNat → inside s s.dst.toNat m →
      apart s.dst.toNat m s.src.toNat s.len.toNat → ¬ binary s s.src.toNat s.len.toNat →
        exec .uf23 s = .next { s with err := 5 }) ∧
    (s.len.toNat % 15 = 0 → inside s s.src.toNat s.len.toNat → inside s s.dst.toNat m →
      apart s.dst.toNat m s.src.toNat s.len.toNat → binary s s.src.toNat s.len.toNat →
        ∃ t, exec .uf23 s = .next t ∧
          storesExactly s t s.dst.toNat m fun q => bitAt s (s.src.toNat + (15 * (q / 10) + q % 10)))

/-- R156: F23G, the register written anew from the rule. -/
def Obligations.F23gWritesCheckBits : Prop :=
  ∀ s : State,
    (¬(inside s s.src.toNat 10 ∧ inside s s.dst.toNat 5) → exec .f23g s = .next { s with err := 3 }) ∧
    (inside s s.src.toNat 10 → inside s s.dst.toNat 5 → ¬ apart s.dst.toNat 5 s.src.toNat 10 →
      exec .f23g s = .next { s with err := 4 }) ∧
    (inside s s.src.toNat 10 → inside s s.dst.toNat 5 → apart s.dst.toNat 5 s.src.toNat 10 →
      ¬ binary s s.src.toNat 10 → exec .f23g s = .next { s with err := 5 }) ∧
    (inside s s.src.toNat 10 → inside s s.dst.toNat 5 → apart s.dst.toNat 5 s.src.toNat 10 →
      binary s s.src.toNat 10 →
        ∃ t, exec .f23g s = .next t ∧
          storesExactly s t s.dst.toNat 5 fun m =>
            ((bitsAt s s.src.toNat 10).foldl (fecRuleStep s.params.fec23Taps) 0).getLsbD m)

/-- R165, R166: CRC, the register written anew from the rule; bits 31:16 of RES zero. -/
def Obligations.CrcWritesRemainder : Prop :=
  ∀ s : State,
    (¬ inside s s.src.toNat s.len.toNat → exec .crc s = .next { s with err := 3 }) ∧
    (inside s s.src.toNat s.len.toNat → ¬ binary s s.src.toNat s.len.toNat →
      exec .crc s = .next { s with err := 5 }) ∧
    (inside s s.src.toNat s.len.toNat → binary s s.src.toNat s.len.toNat →
      exec .crc s = .next { s with
        res := BitVec.ofNat 32 ((bitsAt s s.src.toNat s.len.toNat).foldl crcRuleStep
          (BitVec.ofNat 16 (s.a0.toNat % 256))).toNat })

/-! ### What the codec functions compute -/

/-- R110: the shift register of LfsrEncode. It starts at r zeros; a data bit put in front (index 0, processed last) turns
the register cw into cw' with fb = b ^ cw[r-1], cw'[0] = fb & g[0] and cw'[j] = cw[j-1] ^ (fb & g[j]). -/
def Obligations.LfsrEncodeIsShiftRegister : Prop :=
  ∀ (g d : List Bool) (b : Bool) (r : Nat), g.length = r → 0 < r →
    lfsrEncode [] r g = List.replicate r false ∧
    (lfsrEncode d r g).length = r ∧
    ∀ fb : Bool, fb = (b ^^ (lfsrEncode d r g).getD (r - 1) false) →
      (lfsrEncode (b :: d) r g).getD 0 false = (fb && g.getD 0 false) ∧
      ∀ j, 1 ≤ j → j < r →
        (lfsrEncode (b :: d) r g).getD j false =
          ((lfsrEncode d r g).getD (j - 1) false ^^ (fb && g.getD j false))

/-- R114, an inference the spec marks as derived from R110, R112 and R113: LfsrEncode is division of polynomials over
GF(2): C(x) = x^r D(x) mod G(x) with G(x) = x^r + the sum of g[j] x^j; and its four consequences: (a) linear, (b) zero
data gives zero, (c) zero bits at the high end change nothing, (d) the systematic word is a multiple of G. -/
def Obligations.LfsrEncodeIsPolynomialDivision : Prop :=
  ∀ (g : List Bool) (r : Nat), g.length = r → 0 < r →
    (∀ d : List Bool,
      polyOf (lfsrEncode d r g) = (Polynomial.X ^ r * polyOf d) %ₘ (Polynomial.X ^ r + polyOf g)) ∧
    (∀ d e : List Bool, d.length = e.length →
      lfsrEncode (List.zipWith xor d e) r g = List.zipWith xor (lfsrEncode d r g) (lfsrEncode e r g)) ∧
    (∀ k, lfsrEncode (List.replicate k false) r g = List.replicate r false) ∧
    (∀ (d : List Bool) (z : Nat), lfsrEncode (d ++ List.replicate z false) r g = lfsrEncode d r g) ∧
    (∀ d : List Bool, (Polynomial.X ^ r + polyOf g) ∣ polyOf (lfsrEncode d r g ++ d))

/-- R131, an inference the spec marks as derived from R125: the finished Access Code, air bit by air bit, for every LAP,
every generator G_AC and every legal PN, with the preambles and trailers of log 5: preamble, 34 descrambled redundancy
bits, the LAP with its least significant bit first, six bits and the trailer as bit 23 says; and the alternation across
the joins. -/
def Obligations.AccessCodeLayout : Prop :=
  ∀ (p : Params) (lap : Word) (s pn : Nat → Bool) (d : List Bool), p.Legal →
    p.trl0 = Tables.defaults.trl0 → p.trl1 = Tables.defaults.trl1 → p.brk1 = Tables.defaults.brk1 →
    p.pre0 = Tables.defaults.pre0 → p.pre1 = Tables.defaults.pre1 →
    s = airBit (acGen p lap) → pn = (fun t => (unpack p.pn.toList).getD t false) →
    d = (List.range 30).map (fun i => (lapData lap).getD i false ^^ pn (38 + i)) →
      (∀ t < 4, s t = if s 4 then decide (t % 2 = 0) else decide (t % 2 = 1)) ∧
      (∀ j < 34, s (4 + j) = ((lfsrEncode d 34 (p.gAc.toList.take 34)).getD j false ^^ pn (4 + j))) ∧
      (∀ i < 24, s (38 + i) = lap.getLsbD i) ∧
      (∀ i < 6, s (62 + i) = (lapData lap).getD (24 + i) false) ∧
      (∀ i < 4, s (68 + i) = if lap.getLsbD 23 then decide (i % 2 = 0) else decide (i % 2 = 1)) ∧
      s 3 = !(s 4) ∧ s 68 = !(s 67)

/-- R129, an inference the spec marks as derived from R125: with any tables the Access Code is a function of the low 24
bits of the LAP operand; and different LAPs have different codes whenever BRK1 sets no bit of the LAP (as the one of log
5). -/
def Obligations.AccessCodeDeterminedByLap : Prop :=
  ∀ (p : Params) (v w : Word),
    (v.toNat % 2 ^ 24 = w.toNat % 2 ^ 24 → acGen p v = acGen p w) ∧
    (p.brk1.extractLsb' 2 6 = 0 → acGen p v = acGen p w → v.toNat % 2 ^ 24 = w.toNat % 2 ^ 24)

/-- R159, an inference the spec marks as derived from R156: the FEC 2/3 encoder is linear, whatever the taps; and with the
taps of log 5 it is the exclusive-or of the rows of the table for the data bits that are set. -/
def Obligations.FecParityIsLinear : Prop :=
  (∀ (taps : BitVec 5) (d e : List Bool), d.length = 10 → e.length = 10 →
    fec23Register taps (List.zipWith xor d e) = fec23Register taps d ^^^ fec23Register taps e) ∧
  (∀ d : List Bool, d.length = 10 →
    fec23Register Tables.defaults.fec23Taps d = (List.range 10).foldl
      (fun acc i => acc ^^^ if d.getD i false then parityRows.getD i 0 else 0) 0)

/-- R167, an inference the spec marks as derived from R165: the step of the CRC in closed form; the remainder of x^16 M(x)
for seed 0, the first bit on the air being the highest coefficient; linear for seed 0; and how the seed enters. -/
def Obligations.CrcIsPolynomialRemainder : Prop :=
  (∀ (reg : BitVec 16) (b : Bool), crcStep reg b = crcClosedStep reg b) ∧
  (∀ bs : List Bool,
    polyOf ((List.range 16).map (crc16 bs 0).getLsbD) =
      (Polynomial.X ^ 16 * polyOf bs.reverse) %ₘ
        (Polynomial.X ^ 16 + Polynomial.X ^ 12 + Polynomial.X ^ 5 + 1)) ∧
  (∀ b c : List Bool, b.length = c.length → crc16 (List.zipWith xor b c) 0 = crc16 b 0 ^^^ crc16 c 0) ∧
  (∀ (bs : List Bool) (u : Byte), crc16 bs u = crc16 bs 0 ^^^ crc16 (List.replicate bs.length false) u)

/-! ### Relations between commands -/

/-- R102, an inference the spec marks as derived from R100 and R101: H2A then A2H on the same cells gives back the value
modulo 2^w. -/
def Obligations.H2aThenA2hRoundTrip : Prop :=
  ∀ s : State, s.len.toNat ≤ 32 → inside s s.dst.toNat s.len.toNat →
    ∃ t, exec .h2a s = .next t ∧
      exec .a2h { t with src := s.dst } =
        .next { t with src := s.dst, res := BitVec.ofNat 32 (s.a0.toNat % 2 ^ s.len.toNat) }

/-- R144, an inference the spec marks as derived from R140: whitening is its own inverse: from P to Q and with the same
clock, skip and length from Q to R, every cell of R is the cell of P it came from; R may be P. -/
def Obligations.WhitenTwiceRestores : Prop :=
  ∀ (s : State) (r : Word), inside s s.src.toNat s.len.toNat → inside s s.dst.toNat s.len.toNat →
    inside s r.toNat s.len.toNat → apart s.dst.toNat s.len.toNat s.src.toNat s.len.toNat →
    apart r.toNat s.len.toNat s.dst.toNat s.len.toNat → binary s s.src.toNat s.len.toNat →
      ∃ t, exec .wht s = .next t ∧ ∃ v, exec .wht { t with src := s.dst, dst := r } = .next v ∧
        ∀ j < s.len.toNat, v.cell (r.toNat + j) = s.cell (s.src.toNat + j)

/-- R146, an inference the spec marks as derived from R140: whitening in two pieces, the second with a skip larger by the
length of the first; any register value that agrees with that sum modulo 127 will do. -/
def Obligations.WhiteningSplits : Prop :=
  ∀ (p : Params) (bs cs : List Bool) (clock skip skip' : Word),
    skip'.toNat % 127 = (skip.toNat + bs.length) % 127 →
      whiten p (bs ++ cs) clock skip = whiten p bs clock skip ++ whiten p cs clock skip'

/-- R145, "a check on rules R141 and R142, not a rule of the hardware", with the tables of log 5: for every key and at
every position the whitening tables give the output of the register of x^7 + x^4 + 1. -/
def Obligations.WhiteningTablesFollowRegister : Prop :=
  ∀ (c : BitVec 6) (t : Nat),
    Tables.defaults.whitenSeq.toList.getD (((Tables.defaults.whitenIdx.toList.getD c.toNat 0).val + t) % 127) false =
      (whitenRegister c t).getLsbD 6

/-- R152, an inference the spec marks as derived from R150: if each group of three cells holds a bit three times but for
at most one cell, UF13 returns those bits. -/
def Obligations.Uf13CorrectsOneErrorPerGroup : Prop :=
  ∀ (s : State) (m : Nat) (b : Nat → Bool), s.len.toNat = 3 * m → inside s s.src.toNat (3 * m) →
    inside s s.dst.toNat m → apart s.dst.toNat m s.src.toNat (3 * m) → binary s s.src.toNat (3 * m) →
    (∀ i < m, ∃ e < 3, ∀ j < 3, j ≠ e → s.cell (s.src.toNat + (3 * i + j)) = if b i then 1 else 0) →
      ∃ t, exec .uf13 s = .next t ∧ ∀ i < m, t.cell (s.dst.toNat + i) = if b i then 1 else 0

/-- R160, an inference the spec marks as derived from R155 and R156: F23G with the check bits straight behind the data,
then UF23 over the 15 cells, gives the data back. -/
def Obligations.F23gThenUf23RoundTrip : Prop :=
  ∀ (s : State) (q : Word), s.dst.toNat = s.src.toNat + 10 → inside s s.src.toNat 15 →
    binary s s.src.toNat 10 → inside s q.toNat 10 → apart q.toNat 10 s.src.toNat 15 →
      ∃ t, exec .f23g s = .next t ∧ ∃ v, exec .uf23 { t with len := 15, dst := q } = .next v ∧
        ∀ j < 10, v.cell (q.toNat + j) = s.cell (s.src.toNat + j)

/-- R133, an inference the spec marks as derived from R130 and R132: the Access Code ACGEN writes, expanded to 72 cells,
verifies with the same LAP. -/
def Obligations.AcvfyAcceptsGeneratedCode : Prop :=
  ∀ s t u : State, exec .acgen s = .next t → u.params = s.params → u.a0 = s.a0 → inside u u.src.toNat 72 →
    (∀ k < 72, u.cell (u.src.toNat + k) = if airBit t.ac k then 1 else 0) →
      exec .acvfy u = .next { u with res := 1 }

/-- R134, an inference the spec marks as derived from R132: a single cell that differs from the expected bit makes ACVFY
answer 0, whatever the other cells hold. -/
def Obligations.AcvfyHasNoTolerance : Prop :=
  ∀ (s t u : State) (k : Nat), exec .acgen s = .next t → u.params = s.params → u.a0 = s.a0 →
    inside u u.src.toNat 72 → binary u u.src.toNat 72 → k < 72 →
    (u.cell (u.src.toNat + k) = if airBit t.ac k then 0 else 1) →
      exec .acvfy u = .next { u with res := 0 }

/-- R169, an inference the spec marks as derived from R167: for a fixed length the CRC changes when exactly one input cell
is inverted, and when exactly one of the low eight bits of the seed is. -/
def Obligations.CrcDetectsSingleChange : Prop :=
  ∀ s u : State, s.params = u.params → s.src = u.src → s.len = u.len → inside s s.src.toNat s.len.toNat →
    binary s s.src.toNat s.len.toNat → binary u u.src.toNat u.len.toNat →
    ((∃ k < s.len.toNat, s.a0 = u.a0 ∧
        ∀ j < s.len.toNat, (s.cell (s.src.toNat + j) = u.cell (s.src.toNat + j) ↔ j ≠ k)) ∨
      (∃ k < 8, (∀ j < s.len.toNat, s.cell (s.src.toNat + j) = u.cell (s.src.toNat + j)) ∧
        ∀ j < 8, (s.a0.getLsbD j = u.a0.getLsbD j ↔ j ≠ k))) →
      ∃ t v, exec .crc s = .next t ∧ exec .crc u = .next v ∧ t.res ≠ v.res

/-! ### Rules about all commands -/

/-- R22: no command, faulting or not, writes x[0] to x[5]; nor does it touch the parameters (R31), the moves the host has
still to make or the model's reset count. -/
def Obligations.CommandsKeepOperandRegisters : Prop :=
  ∀ (i : Instr) (s t : State), exec i s = .next t →
    t.src = s.src ∧ t.dst = s.dst ∧ t.len = s.len ∧ t.a0 = s.a0 ∧ t.a1 = s.a1 ∧ t.gp = s.gp ∧
      t.params = s.params ∧ t.moves = s.moves ∧ t.resets = s.resets

/-- Who writes RES, AC and BM (R23, R24, R30): RES only A2H, ACVFY and CRC, AC only ACGEN, cells only H2A, LFSR, WHT,
UF13, UF23 and F23G, and a request that is not accepted writes none of them. -/
def Obligations.OutputsHaveTheirWriters : Prop :=
  ∀ (i : Instr) (s t : State), exec i s = .next t →
    (¬(accepts i s ∧ (i = .a2h ∨ i = .acvfy ∨ i = .crc)) → t.res = s.res) ∧
    (¬(accepts i s ∧ i = .acgen) → t.ac = s.ac) ∧
    (¬(accepts i s ∧ (i = .h2a ∨ i = .lfsr ∨ i = .wht ∨ i = .uf13 ∨ i = .uf23 ∨ i = .f23g)) → t.mem = s.mem)

/-- R67, an inference the spec marks as derived: every cell of a command's write range holds 0 or 1 when the command has
run, and a command that has faulted or has no write range has changed no cell; cells outside the write range are as
before. -/
def Obligations.CoreWritesOnlyBits : Prop :=
  ∀ (i : Instr) (s t : State), exec i s = .next t →
    (accepts i s → ∀ w ∈ writeRanges i s, ∀ a, w.has a → t.cell a ≤ 1) ∧
    (∀ a, (accepts i s → ∀ w ∈ writeRanges i s, ¬ w.has a) → t.cell a = s.cell a)

/-- R32: the result of a command is a function of the command, the operand registers R83 lists for it, the cells it reads
and the parameters, and of nothing else: two states that agree on these accept or refuse the request alike, with the same
fault, and leave the same RES, AC and output cells where the command writes them. -/
def Obligations.ResultDependsOnOperandsOnly : Prop :=
  ∀ (i : Instr) (s s' : State), s.params = s'.params → operandRegs i s = operandRegs i s' →
    (∀ r ∈ readRanges i s, ∀ j < r.count, s.cell (r.start + j) = s'.cell (r.start + j)) →
    ((accepts i s ↔ accepts i s') ∧ writeRanges i s = writeRanges i s' ∧
      ∃ t t', exec i s = .next t ∧ exec i s' = .next t' ∧
        (¬ accepts i s → ∃ c, t = s.raise c ∧ t' = s'.raise c) ∧
        (accepts i s →
          (i = .a2h ∨ i = .acvfy ∨ i = .crc → t.res = t'.res) ∧ (i = .acgen → t.ac = t'.ac) ∧
          ∀ w ∈ writeRanges i s, ∀ a, w.has a → t.cell a = t'.cell a))

/-! ### The host's moves, reset, and the whole machine -/

/-- R34: what a host register write does and what a host register read returns, for every register number, in every state.
-/
def Obligations.HostRegisterAccess : Prop :=
  (∀ (s : State) (v : Word),
    performMove (.writeReg 0 v) s = .next { s with src := v } ∧
    performMove (.writeReg 1 v) s = .next { s with dst := v } ∧
    performMove (.writeReg 2 v) s = .next { s with len := v } ∧
    performMove (.writeReg 3 v) s = .next { s with a0 := v } ∧
    performMove (.writeReg 4 v) s = .next { s with a1 := v } ∧
    performMove (.writeReg 5 v) s = .next { s with gp := v } ∧
    performMove (.writeReg 8 v) s = performMove (.command v) s ∧
    ∀ n, n = 6 ∨ n = 7 ∨ n = 9 ∨ n = 10 ∨ n = 11 ∨ 12 ≤ n → performMove (.writeReg n v) s = .next s) ∧
  (∀ (s : State) (n : Nat), performMove (.readReg n) s = .next s) ∧
  (∀ s : State,
    hostReply (.readReg 0) s = some s.src ∧ hostReply (.readReg 1) s = some s.dst ∧
    hostReply (.readReg 2) s = some s.len ∧ hostReply (.readReg 3) s = some s.a0 ∧
    hostReply (.readReg 4) s = some s.a1 ∧ hostReply (.readReg 5) s = some s.gp ∧
    hostReply (.readReg 6) s = some s.res ∧ hostReply (.readReg 7) s = some (BitVec.ofNat 32 s.err.toNat) ∧
    hostReply (.readReg 8) s = some 0 ∧
    hostReply (.readReg 9) s = some (BitVec.ofNat 32 (s.ac.toNat / 2 ^ 40)) ∧
    hostReply (.readReg 10) s = some (BitVec.ofNat 32 (s.ac.toNat / 2 ^ 8)) ∧
    hostReply (.readReg 11) s = some (BitVec.ofNat 32 (s.ac.toNat % 2 ^ 8 * 2 ^ 24)) ∧
    ∀ n, 12 ≤ n → hostReply (.readReg n) s = some 0)

/-- R62: host access to cells below N_CELLS, in every state, halted or not. -/
def Obligations.HostCellAccess : Prop :=
  ∀ (s : State) (a : Nat), a < s.params.nCells →
    (∀ v : Byte, ∃ t, performMove (.writeCell a v) s = .next t ∧ t = { s with mem := t.mem } ∧ t.cell a = v ∧
      ∀ x, x ≠ a → t.cell x = s.cell x) ∧
    performMove (.readCell a) s = .next s ∧ hostReply (.readCell a) s = some ((s.cell a).setWidth 32)

/-- R210: HostReset clears the operand registers, RES, STATUS and AC, in every state, and keeps the parameters; every cell
becomes the free draw of the new reset, of which nothing is claimed (its form is the model's, log 2; that the host's later
moves stay is log 1). -/
def Obligations.HostResetRestoresResetState : Prop :=
  ∀ (s : State) (rest : List HostMove), s.moves = .reset :: rest →
    ∃ t, step s = .next t ∧ (∀ n ≤ 11, hostReadReg n t = 0) ∧ t.err = 0 ∧ t.ac = 0 ∧
      t.params = s.params ∧ t.moves = rest ∧
      ∀ a, t.cell a = Config.freeCell (s.resets + 1) a

/-- The reset values of R33 that the spec states, for a machine with any parameters: the operand registers, RES, STATUS
and AC zero, the block not halted, the parameters those it was built with (R8). State.reset is the machine with the
defaults of R8 (which of the machines it is, is log 4; the empty list of moves is log 1). -/
def Obligations.ResetValues : Prop :=
  (∀ (p : Params) (s : State), s = State.resetWith p →
    s.params = p ∧ s.src = 0 ∧ s.dst = 0 ∧ s.len = 0 ∧ s.a0 = 0 ∧ s.a1 = 0 ∧ s.gp = 0 ∧ s.res = 0 ∧ s.err = 0 ∧
    s.ac = 0 ∧ s.halted = false ∧ ∀ n ≤ 11, hostReadReg n s = 0) ∧
  State.reset = State.resetWith Tables.defaults ∧ State.reset.params.nCells = 4096 ∧ State.reset.params.rMax = 64

/-- R31, R8: no step, a reset included, changes N_CELLS, R_MAX or a constant table. -/
def Obligations.ParametersNeverChange : Prop :=
  ∀ s t : State, step s = .next t → t.params = s.params

/-- Between commands the block is idle and keeps all its state (R20, R191; that a step of the model exists then is log
13). -/
def Obligations.IdleKeepsState : Prop :=
  ∀ s : State, s.moves = [] → step s = .next s

/-- A step carries out the host's next move on the state without it, and every move that exists leads to a next state with
exactly that move gone, so the order of the steps is the order of the moves (R63, R27; the list in State is log 1). -/
def Obligations.MovesAreCarriedOutInOrder : Prop :=
  ∀ (s : State) (m : HostMove) (rest : List HostMove), s.moves = m :: rest →
    step s = performMove m { s with moves := rest } ∧
    (m.wellFormed s.params.nCells = true → ∃ t, step s = .next t ∧ t.moves = rest)

/-- No step is ever refused, and a step stops only when the host names a cell that does not exist (R196; the stop is the
model's form of "no move", log 7). -/
def Obligations.StepStopsOnlyOutsideMemory : Prop :=
  ∀ s : State, (∀ r, step s ≠ .refused r) ∧
    (∀ f, step s = .fault f ↔ f = .noSuchCell ∧ ∃ a rest, s.params.nCells ≤ a ∧
      (s.moves = .readCell a :: rest ∨ ∃ v, s.moves = .writeCell a v :: rest))

/-- The state after reset is legal, with the default parameters and with any legal ones. -/
def Obligations.ResetStateIsLegal : Prop :=
  State.reset.Inv ∧ ∀ p : Params, p.Legal → (State.resetWith p).Inv

/-- Every step from a legal state, reachable or not, leads to a legal state: BM's data stays in canonical form inside BM,
STATUS.ERR stays a code of R181 (R26), and the parameters stay legal (R8). -/
def Obligations.LegalStateIsKept : Prop :=
  ∀ s t : State, s.Inv → step s = .next t → t.Inv

/-- R26: STATUS reads as ERR in bits 3:0 with bits 31:4 zero, and in a legal state ERR is at most 5. -/
def Obligations.StatusReadsErrorCode : Prop :=
  ∀ s : State, (hostReadReg 7 s).toNat = s.err.toNat ∧ (hostReadReg 7 s).extractLsb' 4 28 = 0 ∧
    (s.Inv → (hostReadReg 7 s).toNat ≤ 5)
end

