-- ==== Sys2Proof/Laws/Bits.lean ====
section
/-! SUPPORT. The helpers on bits: lengths, elements and bounds, so that no later proof unfolds them. -/

namespace Sys2Proof.Machine

@[simp] theorem cellOfBit_true : cellOfBit true = 1 := rfl
@[simp] theorem cellOfBit_false : cellOfBit false = 0 := rfl
@[simp] theorem bitOfCell_cellOfBit (b : Bool) : bitOfCell (cellOfBit b) = b := by cases b <;> rfl

/-- Every cell value the core writes is 0 or 1 (R67). -/
theorem cellOfBit_le_one (b : Bool) : cellOfBit b ≤ 1 := by cases b <;> decide

/-- On a binary cell, the bit and the cell say the same. -/
theorem cellOfBit_bitOfCell {c : Byte} (h : c ≤ 1) : cellOfBit (bitOfCell c) = c := by
  have : c = 0 ∨ c = 1 := by
    have h' : c.toNat ≤ 1 := h
    rcases Nat.le_one_iff_eq_zero_or_eq_one.mp h' with h | h
    · exact .inl (BitVec.eq_of_toNat_eq h)
    · exact .inr (BitVec.eq_of_toNat_eq h)
  rcases this with rfl | rfl <;> rfl

/-- The bit of a binary cell, as the claims read it. -/
theorem bitOfCell_eq_decide {c : Byte} (h : c ≤ 1) : bitOfCell c = decide (c = 1) := by
  rw [← cellOfBit_bitOfCell h]
  cases bitOfCell c <;> rfl

/-- The integer of a bit sequence as the sum of R100. -/
theorem natOfBits_eq_sum (bs : List Bool) :
    natOfBits bs = ∑ i ∈ Finset.range bs.length, (bs.getD i false).toNat * 2 ^ i := by
  induction bs with
  | nil => rfl
  | cons b bs ih =>
    rw [List.length_cons, Finset.sum_range_succ', natOfBits, ih, Finset.mul_sum]
    simp only [List.getD_cons_succ, List.getD_cons_zero, pow_succ, pow_zero, mul_one]
    rw [add_comm]
    congr 1
    exact Finset.sum_congr rfl fun i _ => by ring

theorem natOfBits_lt (bs : List Bool) : natOfBits bs < 2 ^ bs.length := by
  induction bs with
  | nil => simp [natOfBits]
  | cons b bs ih =>
    rw [List.length_cons, pow_succ, natOfBits]
    have := Bool.toNat_le b
    omega

@[simp] theorem length_bitsOfWord (v : Word) (w : Nat) : (bitsOfWord v w).length = w := by simp [bitsOfWord]

theorem getD_bitsOfWord (v : Word) {w i : Nat} (h : i < w) : (bitsOfWord v w).getD i false = v.getLsbD i := by
  simp [bitsOfWord, List.getD_eq_getElem?_getD, h]

@[simp] theorem length_bitsOfByte (b : Byte) : (bitsOfByte b).length = 8 := by simp [bitsOfByte]

@[simp] theorem length_unpack (bs : List Byte) : (unpack bs).length = 8 * bs.length := by
  induction bs with
  | nil => rfl
  | cons b bs ih =>
    have : unpack (b :: bs) = bitsOfByte b ++ unpack bs := rfl
    rw [this, List.length_append, ih, length_bitsOfByte, List.length_cons]
    ring

@[simp] theorem length_pack (s : List Bool) : (pack s).length = s.length / 8 := by simp [pack]

/-- Maj says "at least two of three agree" (R150). -/
theorem maj_eq_true_iff (a b c : Bool) :
    maj a b c = true ↔ (a = true ∧ b = true) ∨ (b = true ∧ c = true) ∨ (c = true ∧ a = true) := by
  cases a <;> cases b <;> cases c <;> decide

end Sys2Proof.Machine
end

