-- ==== Sys2Proof/Laws/Codec.lean ====
section
/-! SUPPORT. The codec functions: the length of each result and its elements. -/

namespace Sys2Proof.Machine

/-! ### LFSR engine -/

theorem length_lfsrStep {g cw : List Bool} (d : Bool) (h : cw.length = g.length) (hg : 0 < g.length) :
    (lfsrStep g d cw).length = g.length := by
  simp only [lfsrStep, List.length_zipWith, List.length_cons, List.length_dropLast]
  omega

/-- LfsrEncode returns as many redundancy bits as the generator has coefficients (R110). -/
theorem length_lfsrEncode (d : List Bool) {r : Nat} {g : List Bool} (hg : g.length = r) (hr : 0 < r) :
    (lfsrEncode d r g).length = r := by
  induction d with
  | nil => simp [lfsrEncode]
  | cons b d ih =>
    have : lfsrEncode (b :: d) r g = lfsrStep g b (lfsrEncode d r g) := rfl
    rw [this, length_lfsrStep b (by omega) (by omega), hg]

@[simp] theorem lfsrEncode_nil (r : Nat) (g : List Bool) : lfsrEncode [] r g = List.replicate r false := rfl

/-- The data bit of index 0 is processed last (R113). -/
theorem lfsrEncode_cons (b : Bool) (d : List Bool) (r : Nat) (g : List Bool) :
    lfsrEncode (b :: d) r g = lfsrStep g b (lfsrEncode d r g) := rfl

/-! ### Whitening -/

@[simp] theorem length_whitenFrom (p : Params) (idx : Nat) (bs : List Bool) : (whitenFrom p idx bs).length = bs.length := by
  induction bs generalizing idx with
  | nil => rfl
  | cons b bs ih => simp [whitenFrom, ih]

@[simp] theorem length_whiten (p : Params) (bs : List Bool) (clock skip : Word) :
    (whiten p bs clock skip).length = bs.length :=
  length_whitenFrom _ _ _

theorem whitenStart_lt (p : Params) (clock skip : Word) : whitenStart p clock skip < 127 := Nat.mod_lt _ (by decide)

/-- Element i of the whitened bits: the closed form of R140. -/
theorem getD_whitenFrom (p : Params) {idx : Nat} (hidx : idx < 127) {bs : List Bool} {i : Nat} (hi : i < bs.length) :
    (whitenFrom p idx bs).getD i false =
      ((bs.getD i false) ^^ p.whitenSeq.toList.getD ((idx + i) % 127) false) := by
  induction bs generalizing idx i with
  | nil => simp at hi
  | cons b bs ih =>
    cases i with
    | zero => simp [whitenFrom, Nat.mod_eq_of_lt hidx]
    | succ i =>
      rw [whitenFrom, List.getD_cons_succ, List.getD_cons_succ,
        ih (Nat.mod_lt _ (by decide)) (by simpa using hi), Nat.mod_add_mod]
      congr 3
      omega

/-! ### FEC decoders -/

@[simp] theorem length_fec13Decode (m : Nat) (bs : List Bool) : (fec13Decode m bs).length = m := by simp [fec13Decode]

theorem getD_fec13Decode (bs : List Bool) {m i : Nat} (h : i < m) :
    (fec13Decode m bs).getD i false =
      maj (bs.getD (3 * i) false) (bs.getD (3 * i + 1) false) (bs.getD (3 * i + 2) false) := by
  simp [fec13Decode, List.getD_eq_getElem?_getD, h]

theorem fec23Decode_succ (nb : Nat) (bs : List Bool) :
    fec23Decode (nb + 1) bs = fec23Decode nb bs ++ (List.range 10).map fun j => bs.getD (15 * nb + j) false := by
  simp [fec23Decode, List.range_succ, List.flatMap_append]

@[simp] theorem length_fec23Decode (nb : Nat) (bs : List Bool) : (fec23Decode nb bs).length = 10 * nb := by
  induction nb with
  | zero => rfl
  | succ nb ih => rw [fec23Decode_succ, List.length_append, ih]; simp; omega

/-- Output bit 10*b + j is input bit 15*b + j (R155). -/
theorem getD_fec23Decode (bs : List Bool) {nb b j : Nat} (hb : b < nb) (hj : j < 10) :
    (fec23Decode nb bs).getD (10 * b + j) false = bs.getD (15 * b + j) false := by
  induction nb with
  | zero => omega
  | succ nb ih =>
    rw [fec23Decode_succ]
    by_cases h : b < nb
    · rw [List.getD_append _ _ _ _ (by rw [length_fec23Decode]; omega), ih h]
    · have : b = nb := by omega
      subst this
      rw [List.getD_append_right _ _ _ _ (by rw [length_fec23Decode]; omega), length_fec23Decode,
        show 10 * b + j - 10 * b = j by omega]
      simp [List.getD_eq_getElem?_getD, hj]

/-! ### Access Code -/

@[simp] theorem length_acScatter (p : Params) (l : BitVec 24) : (acScatter p l).length = 9 := by
  unfold acScatter
  split <;> rfl

@[simp] theorem length_acFirstPass (p : Params) {bs : List Byte} (h : bs.length = 9) : (acFirstPass p bs).length = 9 := by
  simp [acFirstPass, h]

end Sys2Proof.Machine
end

