-- ==== Sys2Proof/Laws/AccessCode.lean ====
section
/-! SUPPORT. Packed order, bit by bit (R16, R52), and what each step of R125 does to the air bits of the Access Code. -/

namespace Sys2Proof.Machine

/-! ### Unpack and Pack -/

theorem getD_bitsOfByte (b : Byte) {m : Nat} (h : m < 8) : (bitsOfByte b).getD m false = b.getLsbD (7 - m) := by
  simp [bitsOfByte, List.getD_eq_getElem?_getD, h]

/-- Unpack, bit by bit (R16, R52). -/
theorem getD_unpack (bs : List Byte) (t : Nat) :
    (unpack bs).getD t false = (bs.getD (t / 8) 0).getLsbD (7 - t % 8) := by
  induction bs generalizing t with
  | nil => simp [unpack]
  | cons b bs ih =>
    have e : unpack (b :: bs) = bitsOfByte b ++ unpack bs := by simp [unpack]
    rw [e]
    by_cases h : t < 8
    · rw [List.getD_append _ _ _ _ (by simpa using h), getD_bitsOfByte b h, Nat.div_eq_of_lt h, Nat.mod_eq_of_lt h]
      rfl
    · rw [List.getD_append_right _ _ _ _ (by simpa using h), length_bitsOfByte, ih,
        show t / 8 = (t - 8) / 8 + 1 by omega, List.getD_cons_succ, show (t - 8) % 8 = t % 8 by omega]

theorem bitsOfByte_byteOfBits (s : List Bool) :
    bitsOfByte (byteOfBits s) = (List.range 8).map fun m => s.getD m false := by
  have key : ∀ a b c d e f g h : Bool,
      bitsOfByte (byteOfBits [a, b, c, d, e, f, g, h]) = [a, b, c, d, e, f, g, h] := by decide
  exact key (s.getD 0 false) (s.getD 1 false) (s.getD 2 false) (s.getD 3 false) (s.getD 4 false) (s.getD 5 false)
    (s.getD 6 false) (s.getD 7 false)

theorem getLsbD_byteOfBits (s : List Bool) {m : Nat} (h : m < 8) :
    (byteOfBits s).getLsbD (7 - m) = s.getD m false := by
  rw [← getD_bitsOfByte _ h, bitsOfByte_byteOfBits]
  simp [List.getD_eq_getElem?_getD, h]

theorem getD_pack (s : List Bool) {b : Nat} (h : b < s.length / 8) :
    (pack s).getD b 0 = byteOfBits (s.drop (8 * b)) := by
  simp [pack, List.getD_eq_getElem?_getD, h]

/-- Pack and Unpack are inverse on whole bytes (R16). -/
theorem getD_unpack_pack (s : List Bool) {t : Nat} (h : t < 8 * (s.length / 8)) :
    (unpack (pack s)).getD t false = s.getD t false := by
  rw [getD_unpack, getD_pack s (by omega), getLsbD_byteOfBits _ (by omega), List.getD_eq_getElem?_getD,
    List.getElem?_drop, List.getD_eq_getElem?_getD, show 8 * (t / 8) + t % 8 = t by omega]

/-! ### Nine bytes as 72 bits -/

theorem getLsbD_appendByte_of_ge (x : BitVec 72) (b : Byte) {k : Nat} (h : 8 ≤ k) (h' : k < 72) :
    ((x <<< 8) ||| b.setWidth 72).getLsbD k = x.getLsbD (k - 8) := by
  have hb : b.getLsbD k = false := BitVec.getLsbD_of_ge b k h
  simp only [BitVec.getLsbD_or, BitVec.getLsbD_shiftLeft, BitVec.getLsbD_setWidth, hb, h', decide_true]
  simp [Nat.not_lt.mpr h]

theorem getLsbD_appendByte_of_lt (x : BitVec 72) (b : Byte) {k : Nat} (h : k < 8) :
    ((x <<< 8) ||| b.setWidth 72).getLsbD k = b.getLsbD k := by
  simp only [BitVec.getLsbD_or, BitVec.getLsbD_shiftLeft, BitVec.getLsbD_setWidth]
  simp [h, show k < 72 by omega]

/-- Byte n of nine packed bytes is the byte of index n (R12, R24). -/
theorem packedByte_packedOfBytes {bs : List Byte} (h : bs.length = 9) {n : Nat} (hn : n < 9) :
    packedByte (packedOfBytes bs) n = bs.getD n 0 := by
  match bs, h with
  | [a, b, c, d, e, f, g, x, y], _ =>
    apply BitVec.eq_of_getLsbD_eq
    intro j hj
    simp only [packedByte, packedOfBytes, List.foldl_cons, List.foldl_nil, BitVec.getLsbD_extractLsb', hj,
      decide_true, Bool.true_and]
    interval_cases n <;>
      simp (disch := omega) only [getLsbD_appendByte_of_ge, getLsbD_appendByte_of_lt] <;> simp <;> congr 1 <;> omega

/-- Air bit t of nine packed bytes is bit t of the unpacked sequence (R52). -/
theorem airBit_packedOfBytes {bs : List Byte} (h : bs.length = 9) {t : Nat} (ht : t < 72) :
    airBit (packedOfBytes bs) t = (unpack bs).getD t false := by
  rw [airBit, getD_unpack, packedByte_packedOfBytes h (by omega)]

/-! ### The steps of R125 -/

theorem getLsbD_lapOf (v : Word) {k : Nat} (h : k < 24) : (lapOf v).getLsbD k = v.getLsbD k := by
  simp [lapOf, h]

/-- The bytewise reversal reverses all 24 bits (R125 step 1, R126). -/
theorem getLsbD_acReverse (a : BitVec 24) {k : Nat} (h : k < 24) :
    (acReverse a).getLsbD k = a.getLsbD (23 - k) := by
  simp only [acReverse, rev8, BitVec.getLsbD_append, BitVec.getLsbD_reverse, BitVec.getMsbD]
  interval_cases k <;> simp

/-- Air bits 38 to 61 after step 3 are the bits of L, highest first (R125 step 2), when BRK1 sets no bit of L. -/
theorem getD_unpack_acScatter (p : Params) (hb : p.brk1.extractLsb' 2 6 = 0) (l : BitVec 24) {i : Nat} (h : i < 24) :
    (unpack (acScatter p l)).getD (38 + i) false = l.getLsbD (23 - i) := by
  have hk : ∀ k < 6, p.brk1.getLsbD (2 + k) = false := fun k hk => by
    simpa [hk] using congrArg (fun v => v.getLsbD k) hb
  have h2 : p.brk1[2] = false := hk 0 (by omega)
  have h3 : p.brk1[3] = false := hk 1 (by omega)
  have h4 : p.brk1[4] = false := hk 2 (by omega)
  have h5 : p.brk1[5] = false := hk 3 (by omega)
  have h6 : p.brk1[6] = false := hk 4 (by omega)
  have h7 : p.brk1[7] = false := hk 5 (by omega)
  rw [getD_unpack]
  unfold acScatter
  split <;> interval_cases i <;> simp [h2, h3, h4, h5, h6, h7]

/-- A byte of the exclusive-or of two byte sequences of one length. -/
theorem getD_zipWith_xor {as bs : List Byte} (h : as.length = bs.length) (n : Nat) :
    (List.zipWith (· ^^^ ·) as bs).getD n 0 = as.getD n 0 ^^^ bs.getD n 0 := by
  induction as generalizing bs n with
  | nil => cases bs <;> simp_all
  | cons a as ih =>
    cases bs with
    | nil => simp at h
    | cons b bs =>
      cases n with
      | zero => rfl
      | succ n => simpa using ih (by simpa using h) n

/-- The first pass adds PN from air bit 32 on (R125 step 4). -/
theorem getD_unpack_acFirstPass (p : Params) {bs : List Byte} (h : bs.length = 9) {t : Nat} (ht : 32 ≤ t) :
    (unpack (acFirstPass p bs)).getD t false =
      ((unpack bs).getD t false ^^ (unpack p.pn.toList).getD t false) := by
  simp only [getD_unpack]
  rw [← BitVec.getLsbD_xor, acFirstPass, List.getD_append_right _ _ _ _ (by simp [h]; omega),
    getD_zipWith_xor (by simp [h])]
  congr 2 <;>
    simp only [List.getD_eq_getElem?_getD, List.getElem?_drop, List.length_take, h] <;>
    rw [show 4 + (t / 8 - min 4 9) = t / 8 by omega]

/-- The second pass adds PN to every air bit (R125 step 8). -/
theorem getD_unpack_acSecondPass (p : Params) {bs : List Byte} (h : bs.length = 9) (t : Nat) :
    (unpack (acSecondPass p bs)).getD t false =
      ((unpack bs).getD t false ^^ (unpack p.pn.toList).getD t false) := by
  simp only [getD_unpack]
  rw [← BitVec.getLsbD_xor, acSecondPass, getD_zipWith_xor (by simp [h])]

@[simp] theorem length_acReassemble (p : Params) {bs : List Byte} (h : bs.length = 9) : (acReassemble p bs).length = 9 := by
  rw [acReassemble, length_pack]
  simp [h, length_lfsrEncode]

/-- Steps 6 and 7 of R125: four zero bits, the redundancy, and the rest as it was. -/
theorem getD_unpack_acReassemble (p : Params) {bs : List Byte} (h : bs.length = 9) {t : Nat} (ht : t < 72) :
    (unpack (acReassemble p bs)).getD t false =
      if t < 4 then false
      else if t < 38 then (lfsrEncode (acData bs) 34 (p.gAc.toList.take 34)).getD (t - 4) false
      else (unpack bs).getD t false := by
  have hl : (lfsrEncode (acData bs) 34 (p.gAc.toList.take 34)).length = 34 :=
    length_lfsrEncode _ (by simp) (by decide)
  rw [acReassemble, getD_unpack_pack _ (by simp [hl, h]; omega)]
  simp only [List.getD_eq_getElem?_getD, List.getElem?_append, List.length_append, List.length_replicate, hl,
    List.getElem?_replicate, List.getElem?_drop]
  split_ifs with h1 h2 h3 <;> first | omega | rfl | skip
  congr 2
  omega

@[simp] theorem length_acSecondPass (p : Params) {bs : List Byte} (h : bs.length = 9) : (acSecondPass p bs).length = 9 := by
  simp [acSecondPass, h]

@[simp] theorem length_acPreamble (p : Params) (bs : List Byte) : (acPreamble p bs).length = bs.length := by
  cases bs <;> simp [acPreamble]

theorem length_acBytes (p : Params) (a : BitVec 24) : (acBytes p a).length = 9 := by
  rw [acBytes, length_acPreamble]
  exact length_acSecondPass p (length_acReassemble p (length_acFirstPass p (length_acScatter p _)))

end Sys2Proof.Machine
end

