-- ==== Sys2Proof/Laws/State.lean ====
section
/-! SUPPORT. One lemma per field per update of State, each true by rfl, so that no proof unfolds a record update; and what
each update that leaves BM alone leaves of the cells. -/

namespace Sys2Proof.Machine

/-! ### resetWith -/

@[simp] theorem State.resetWith_params (p : Params) : (State.resetWith p).params = p := rfl
@[simp] theorem State.resetWith_err (p : Params) : (State.resetWith p).err = 0 := rfl
@[simp] theorem State.resetWith_mem (p : Params) : (State.resetWith p).mem = [] := rfl
@[simp] theorem State.resetWith_moves (p : Params) : (State.resetWith p).moves = [] := rfl

/-! ### memWrite -/

@[simp] theorem State.memWrite_params (s : State) (a : Nat) (bits : List Bool) : (s.memWrite a bits).params = s.params := rfl
@[simp] theorem State.memWrite_src (s : State) (a : Nat) (bits : List Bool) : (s.memWrite a bits).src = s.src := rfl
@[simp] theorem State.memWrite_dst (s : State) (a : Nat) (bits : List Bool) : (s.memWrite a bits).dst = s.dst := rfl
@[simp] theorem State.memWrite_len (s : State) (a : Nat) (bits : List Bool) : (s.memWrite a bits).len = s.len := rfl
@[simp] theorem State.memWrite_a0 (s : State) (a : Nat) (bits : List Bool) : (s.memWrite a bits).a0 = s.a0 := rfl
@[simp] theorem State.memWrite_a1 (s : State) (a : Nat) (bits : List Bool) : (s.memWrite a bits).a1 = s.a1 := rfl
@[simp] theorem State.memWrite_gp (s : State) (a : Nat) (bits : List Bool) : (s.memWrite a bits).gp = s.gp := rfl
@[simp] theorem State.memWrite_res (s : State) (a : Nat) (bits : List Bool) : (s.memWrite a bits).res = s.res := rfl
@[simp] theorem State.memWrite_err (s : State) (a : Nat) (bits : List Bool) : (s.memWrite a bits).err = s.err := rfl
@[simp] theorem State.memWrite_ac (s : State) (a : Nat) (bits : List Bool) : (s.memWrite a bits).ac = s.ac := rfl
@[simp] theorem State.memWrite_mem (s : State) (a : Nat) (bits : List Bool) : (s.memWrite a bits).mem = storeBits s.mem a bits :=
  rfl
@[simp] theorem State.memWrite_resets (s : State) (a : Nat) (bits : List Bool) : (s.memWrite a bits).resets = s.resets := rfl
@[simp] theorem State.memWrite_moves (s : State) (a : Nat) (bits : List Bool) : (s.memWrite a bits).moves = s.moves := rfl

/-! ### writeCell -/

@[simp] theorem State.writeCell_params (s : State) (a : Nat) (v : Byte) : (s.writeCell a v).params = s.params := rfl
@[simp] theorem State.writeCell_src (s : State) (a : Nat) (v : Byte) : (s.writeCell a v).src = s.src := rfl
@[simp] theorem State.writeCell_dst (s : State) (a : Nat) (v : Byte) : (s.writeCell a v).dst = s.dst := rfl
@[simp] theorem State.writeCell_len (s : State) (a : Nat) (v : Byte) : (s.writeCell a v).len = s.len := rfl
@[simp] theorem State.writeCell_a0 (s : State) (a : Nat) (v : Byte) : (s.writeCell a v).a0 = s.a0 := rfl
@[simp] theorem State.writeCell_a1 (s : State) (a : Nat) (v : Byte) : (s.writeCell a v).a1 = s.a1 := rfl
@[simp] theorem State.writeCell_gp (s : State) (a : Nat) (v : Byte) : (s.writeCell a v).gp = s.gp := rfl
@[simp] theorem State.writeCell_res (s : State) (a : Nat) (v : Byte) : (s.writeCell a v).res = s.res := rfl
@[simp] theorem State.writeCell_err (s : State) (a : Nat) (v : Byte) : (s.writeCell a v).err = s.err := rfl
@[simp] theorem State.writeCell_ac (s : State) (a : Nat) (v : Byte) : (s.writeCell a v).ac = s.ac := rfl
@[simp] theorem State.writeCell_mem (s : State) (a : Nat) (v : Byte) : (s.writeCell a v).mem = store s.mem a v := rfl
@[simp] theorem State.writeCell_resets (s : State) (a : Nat) (v : Byte) : (s.writeCell a v).resets = s.resets := rfl
@[simp] theorem State.writeCell_moves (s : State) (a : Nat) (v : Byte) : (s.writeCell a v).moves = s.moves := rfl

/-! ### setRes -/

@[simp] theorem State.setRes_params (s : State) (v : Word) : (s.setRes v).params = s.params := rfl
@[simp] theorem State.setRes_src (s : State) (v : Word) : (s.setRes v).src = s.src := rfl
@[simp] theorem State.setRes_dst (s : State) (v : Word) : (s.setRes v).dst = s.dst := rfl
@[simp] theorem State.setRes_len (s : State) (v : Word) : (s.setRes v).len = s.len := rfl
@[simp] theorem State.setRes_a0 (s : State) (v : Word) : (s.setRes v).a0 = s.a0 := rfl
@[simp] theorem State.setRes_a1 (s : State) (v : Word) : (s.setRes v).a1 = s.a1 := rfl
@[simp] theorem State.setRes_gp (s : State) (v : Word) : (s.setRes v).gp = s.gp := rfl
@[simp] theorem State.setRes_res (s : State) (v : Word) : (s.setRes v).res = v := rfl
@[simp] theorem State.setRes_err (s : State) (v : Word) : (s.setRes v).err = s.err := rfl
@[simp] theorem State.setRes_ac (s : State) (v : Word) : (s.setRes v).ac = s.ac := rfl
@[simp] theorem State.setRes_mem (s : State) (v : Word) : (s.setRes v).mem = s.mem := rfl
@[simp] theorem State.setRes_resets (s : State) (v : Word) : (s.setRes v).resets = s.resets := rfl
@[simp] theorem State.setRes_moves (s : State) (v : Word) : (s.setRes v).moves = s.moves := rfl

/-! ### setAc -/

@[simp] theorem State.setAc_params (s : State) (v : BitVec 72) : (s.setAc v).params = s.params := rfl
@[simp] theorem State.setAc_src (s : State) (v : BitVec 72) : (s.setAc v).src = s.src := rfl
@[simp] theorem State.setAc_dst (s : State) (v : BitVec 72) : (s.setAc v).dst = s.dst := rfl
@[simp] theorem State.setAc_len (s : State) (v : BitVec 72) : (s.setAc v).len = s.len := rfl
@[simp] theorem State.setAc_a0 (s : State) (v : BitVec 72) : (s.setAc v).a0 = s.a0 := rfl
@[simp] theorem State.setAc_a1 (s : State) (v : BitVec 72) : (s.setAc v).a1 = s.a1 := rfl
@[simp] theorem State.setAc_gp (s : State) (v : BitVec 72) : (s.setAc v).gp = s.gp := rfl
@[simp] theorem State.setAc_res (s : State) (v : BitVec 72) : (s.setAc v).res = s.res := rfl
@[simp] theorem State.setAc_err (s : State) (v : BitVec 72) : (s.setAc v).err = s.err := rfl
@[simp] theorem State.setAc_ac (s : State) (v : BitVec 72) : (s.setAc v).ac = v := rfl
@[simp] theorem State.setAc_mem (s : State) (v : BitVec 72) : (s.setAc v).mem = s.mem := rfl
@[simp] theorem State.setAc_resets (s : State) (v : BitVec 72) : (s.setAc v).resets = s.resets := rfl
@[simp] theorem State.setAc_moves (s : State) (v : BitVec 72) : (s.setAc v).moves = s.moves := rfl

/-! ### raise -/

@[simp] theorem State.raise_params (s : State) (c : ErrCode) : (s.raise c).params = s.params := rfl
@[simp] theorem State.raise_src (s : State) (c : ErrCode) : (s.raise c).src = s.src := rfl
@[simp] theorem State.raise_dst (s : State) (c : ErrCode) : (s.raise c).dst = s.dst := rfl
@[simp] theorem State.raise_len (s : State) (c : ErrCode) : (s.raise c).len = s.len := rfl
@[simp] theorem State.raise_a0 (s : State) (c : ErrCode) : (s.raise c).a0 = s.a0 := rfl
@[simp] theorem State.raise_a1 (s : State) (c : ErrCode) : (s.raise c).a1 = s.a1 := rfl
@[simp] theorem State.raise_gp (s : State) (c : ErrCode) : (s.raise c).gp = s.gp := rfl
@[simp] theorem State.raise_res (s : State) (c : ErrCode) : (s.raise c).res = s.res := rfl
@[simp] theorem State.raise_err (s : State) (c : ErrCode) : (s.raise c).err = errValue c := rfl
@[simp] theorem State.raise_ac (s : State) (c : ErrCode) : (s.raise c).ac = s.ac := rfl
@[simp] theorem State.raise_mem (s : State) (c : ErrCode) : (s.raise c).mem = s.mem := rfl
@[simp] theorem State.raise_resets (s : State) (c : ErrCode) : (s.raise c).resets = s.resets := rfl
@[simp] theorem State.raise_moves (s : State) (c : ErrCode) : (s.raise c).moves = s.moves := rfl

/-! ### hostReset -/

@[simp] theorem State.hostReset_params (s : State) : (s.hostReset).params = s.params := rfl
@[simp] theorem State.hostReset_src (s : State) : (s.hostReset).src = 0 := rfl
@[simp] theorem State.hostReset_dst (s : State) : (s.hostReset).dst = 0 := rfl
@[simp] theorem State.hostReset_len (s : State) : (s.hostReset).len = 0 := rfl
@[simp] theorem State.hostReset_a0 (s : State) : (s.hostReset).a0 = 0 := rfl
@[simp] theorem State.hostReset_a1 (s : State) : (s.hostReset).a1 = 0 := rfl
@[simp] theorem State.hostReset_gp (s : State) : (s.hostReset).gp = 0 := rfl
@[simp] theorem State.hostReset_res (s : State) : (s.hostReset).res = 0 := rfl
@[simp] theorem State.hostReset_err (s : State) : (s.hostReset).err = 0 := rfl
@[simp] theorem State.hostReset_ac (s : State) : (s.hostReset).ac = 0 := rfl
@[simp] theorem State.hostReset_mem (s : State) : (s.hostReset).mem = [] := rfl
@[simp] theorem State.hostReset_resets (s : State) : (s.hostReset).resets = s.resets + 1 := rfl
@[simp] theorem State.hostReset_moves (s : State) : (s.hostReset).moves = s.moves := rfl

/-! ### issueNext -/

@[simp] theorem State.issueNext_params (s : State) (w : Word) : (s.issueNext w).params = s.params := rfl
@[simp] theorem State.issueNext_src (s : State) (w : Word) : (s.issueNext w).src = s.src := rfl
@[simp] theorem State.issueNext_dst (s : State) (w : Word) : (s.issueNext w).dst = s.dst := rfl
@[simp] theorem State.issueNext_len (s : State) (w : Word) : (s.issueNext w).len = s.len := rfl
@[simp] theorem State.issueNext_a0 (s : State) (w : Word) : (s.issueNext w).a0 = s.a0 := rfl
@[simp] theorem State.issueNext_a1 (s : State) (w : Word) : (s.issueNext w).a1 = s.a1 := rfl
@[simp] theorem State.issueNext_gp (s : State) (w : Word) : (s.issueNext w).gp = s.gp := rfl
@[simp] theorem State.issueNext_res (s : State) (w : Word) : (s.issueNext w).res = s.res := rfl
@[simp] theorem State.issueNext_err (s : State) (w : Word) : (s.issueNext w).err = s.err := rfl
@[simp] theorem State.issueNext_ac (s : State) (w : Word) : (s.issueNext w).ac = s.ac := rfl
@[simp] theorem State.issueNext_mem (s : State) (w : Word) : (s.issueNext w).mem = s.mem := rfl
@[simp] theorem State.issueNext_resets (s : State) (w : Word) : (s.issueNext w).resets = s.resets := rfl
@[simp] theorem State.issueNext_moves (s : State) (w : Word) : (s.issueNext w).moves = .command w :: s.moves := rfl

/-! ### Cells under the updates that leave BM alone -/

@[simp] theorem State.cell_setRes (s : State) (v : Word) (a : Nat) : (s.setRes v).cell a = s.cell a := rfl
@[simp] theorem State.cell_setAc (s : State) (v : BitVec 72) (a : Nat) : (s.setAc v).cell a = s.cell a := rfl
@[simp] theorem State.cell_raise (s : State) (c : ErrCode) (a : Nat) : (s.raise c).cell a = s.cell a := rfl
@[simp] theorem State.cell_issueNext (s : State) (w : Word) (a : Nat) : (s.issueNext w).cell a = s.cell a := rfl
@[simp] theorem State.cell_moves (s : State) (ms : List HostMove) (a : Nat) :
    ({ s with moves := ms } : State).cell a = s.cell a := rfl

/-- After a reset every cell is a fresh free draw (R33, R210). -/
@[simp] theorem State.cell_hostReset (s : State) (a : Nat) :
    s.hostReset.cell a = Config.freeCell (s.resets + 1) a := rfl

/-! ### The record forms the claims use -/

theorem State.raise_eq (s : State) (c : ErrCode) : s.raise c = { s with err := errValue c } := rfl
theorem State.setRes_eq (s : State) (v : Word) : s.setRes v = { s with res := v } := rfl
theorem State.setAc_eq (s : State) (v : BitVec 72) : s.setAc v = { s with ac := v } := rfl
theorem State.memWrite_eq (s : State) (a : Nat) (bits : List Bool) :
    s.memWrite a bits = { s with mem := (s.memWrite a bits).mem } := rfl

end Sys2Proof.Machine
end

