-- ==== Sys2Proof/Laws/Memory.lean ====
section
/-! SUPPORT. The laws of BM: a read after a write gives the value written, a write leaves every other cell alone, and every
memory operation keeps the canonical form. -/

namespace Sys2Proof.Machine

/-! ### The sorted data -/

/-- A lookup after a store: the stored value at its address, everything else as before. Lookup reads the whole list, so
this holds of every list, sorted or not. -/
theorem lookup_store (m : List Host.Cell) (a x : Nat) (v : Byte) :
    lookup (store m a v) x = if x = a then some v else lookup m x := by
  induction m with
  | nil => simp [store, lookup]
  | cons p m ih =>
    unfold store
    split
    · simp [lookup]
    · split
      · rename_i _ h
        subst h
        by_cases hx : x = p.1 <;> simp [lookup, hx]
      · simp only [lookup, ih]
        by_cases hx : x = p.1
        · simp [hx, show p.1 ≠ a by omega]
        · simp [hx]

/-- The addresses listed after a store are those listed before and the stored one. -/
theorem mem_store {m : List Host.Cell} {a : Nat} {v : Byte} {p : Host.Cell} (h : p ∈ store m a v) :
    p = (a, v) ∨ p ∈ m := by
  induction m with
  | nil => simpa [store] using h
  | cons q m ih =>
    unfold store at h
    split at h
    · simpa using h
    · split at h
      · rcases List.mem_cons.mp h with h | h
        · exact .inl h
        · exact .inr (by simp [h])
      · rcases List.mem_cons.mp h with h | h
        · exact .inr (by simp [h])
        · exact (ih h).imp id fun h => by simp [h]

theorem pairwise_store {m : List Host.Cell} (hm : m.Pairwise fun p q => p.1 < q.1) (a : Nat) (v : Byte) :
    (store m a v).Pairwise fun p q => p.1 < q.1 := by
  induction m with
  | nil => simp [store]
  | cons q m ih =>
    obtain ⟨hq, hm'⟩ := List.pairwise_cons.mp hm
    unfold store
    split
    · rename_i hlt
      refine List.pairwise_cons.mpr ⟨fun p hp => ?_, hm⟩
      rcases List.mem_cons.mp hp with rfl | hp
      · exact hlt
      · exact lt_trans hlt (hq p hp)
    · split
      · rename_i h
        exact List.pairwise_cons.mpr ⟨fun p hp => by simpa [h] using hq p hp, hm'⟩
      · refine List.pairwise_cons.mpr ⟨fun p hp => ?_, ih hm'⟩
        rcases mem_store hp with rfl | hp
        · show q.1 < a
          omega
        · exact hq p hp

/-- No cell listed, as after a reset, is in canonical form. -/
theorem wf_nil (n : Nat) : Memory.wf n [] := ⟨List.Pairwise.nil, by simp⟩

/-- A store inside BM keeps the canonical form. -/
theorem wf_store {n : Nat} {m : List Host.Cell} (hm : Memory.wf n m) {a : Nat} (ha : a < n) (v : Byte) :
    Memory.wf n (store m a v) := by
  refine ⟨pairwise_store hm.1 a v, fun p hp => ?_⟩
  rcases mem_store hp with rfl | hp
  · exact ha
  · exact hm.2 p hp

/-- Storing bits inside BM keeps the canonical form. -/
theorem wf_storeBits {n : Nat} {m : List Host.Cell} (hm : Memory.wf n m) {a : Nat} {bits : List Bool}
    (ha : a + bits.length ≤ n) : Memory.wf n (storeBits m a bits) := by
  induction bits generalizing m a with
  | nil => exact hm
  | cons b bs ih =>
    rw [List.length_cons] at ha
    exact ih (wf_store hm (by omega) _) (by omega)

/-- A lookup after storing bits: inside the range the bit's cell value, outside as before. -/
theorem lookup_storeBits (m : List Host.Cell) (a x : Nat) (bits : List Bool) :
    lookup (storeBits m a bits) x =
      if a ≤ x ∧ x < a + bits.length then some (cellOfBit (bits.getD (x - a) false)) else lookup m x := by
  induction bits generalizing m a with
  | nil => simp [storeBits]
  | cons b bs ih =>
    simp only [storeBits, ih, lookup_store, List.length_cons]
    rcases Nat.lt_trichotomy x a with h | h | h
    · rw [if_neg (by omega), if_neg (by omega), if_neg (by omega)]
    · subst h
      simp
    · have e : x - a = (x - (a + 1)) + 1 := by omega
      rw [e, List.getD_cons_succ]
      by_cases hx : x < a + 1 + bs.length
      · rw [if_pos (by omega), if_pos (by omega)]
      · rw [if_neg (by omega), if_neg (by omega), if_neg (by omega)]

/-! ### Cells of the state -/

/-- BM[x] after BM[a] <- v. -/
theorem State.cell_writeCell (s : State) (a x : Nat) (v : Byte) :
    (s.writeCell a v).cell x = if x = a then v else s.cell x := by
  simp only [State.cell, State.writeCell_mem, State.writeCell_resets, lookup_store]
  split <;> simp

/-- BM[x] after MemWrite: the written bits inside the range, everything else as before (R13). -/
theorem State.cell_memWrite (s : State) (a x : Nat) (bits : List Bool) :
    (s.memWrite a bits).cell x =
      if a ≤ x ∧ x < a + bits.length then cellOfBit (bits.getD (x - a) false) else s.cell x := by
  simp only [State.cell, State.memWrite_mem, State.memWrite_resets, lookup_storeBits]
  split <;> simp

@[simp] theorem State.length_memRead (s : State) (a n : Nat) : (s.memRead a n).length = n := by
  simp [State.memRead]

@[simp] theorem State.length_readRange (s : State) (r : Range) : (s.readRange r).length = r.count := by
  simp [State.readRange]

/-- Element i of MemRead (R13). -/
theorem State.getElem_memRead (s : State) (a n i : Nat) (h : i < (s.memRead a n).length) :
    (s.memRead a n)[i] = bitOfCell (s.cell (a + i)) := by
  simp [State.memRead]

/-- Element i of MemRead, as the claims read it: whether the cell is 1, for a binary cell (R58). -/
theorem State.getD_memRead (s : State) {a n i : Nat} (h : i < n) :
    (s.memRead a n).getD i false = bitOfCell (s.cell (a + i)) := by
  simp [State.memRead, List.getD_eq_getElem?_getD, h]

end Sys2Proof.Machine
end

