-- ==== Sys2Proof/Laws/Checks.lean ====
section
/-! SUPPORT. What the checks say: each Boolean check against the words of R56 to R58, the fault a command reports (R184), and
"check, then commit" (R59). Proofs about commands cite `checkThenCommit_of_none` and `checkThenCommit_of_some`. -/

namespace Sys2Proof.Machine

/-! ### The three checks of a range -/

@[simp] theorem Range.inBounds_iff (n : Nat) (r : Range) : r.inBounds n = true ↔ r.start + r.count ≤ n := by
  simp [Range.inBounds]

@[simp] theorem Range.shares_iff (w r : Range) : w.shares r = true ↔ w.overlaps r := by
  simp [Range.shares, and_assoc]

/-- The arithmetic of R57 says what its words say: some address lies in both ranges. -/
theorem Range.overlaps_iff_exists (w r : Range) : w.overlaps r ↔ ∃ a, w.has a ∧ r.has a := by
  constructor
  · rintro ⟨h1, h2, h3, h4⟩
    exact ⟨max w.start r.start, by simp only [Range.has]; omega⟩
  · rintro ⟨a, h1, h2⟩
    simp only [Range.has] at h1 h2
    refine ⟨?_, ?_, ?_, ?_⟩ <;> omega

@[simp] theorem State.binaryOn_iff (s : State) (r : Range) :
    s.binaryOn r = true ↔ ∀ j < r.count, s.cell (r.start + j) ≤ 1 := by
  simp [State.binaryOn]

/-! ### The fault a command reports -/

/-- The fault a command reports: the first of R184 whose condition holds, in the words of R56 to R58. -/
theorem firstFault_eq (s : State) (lenOk : Bool) (reads writes : List Range) :
    firstFault s lenOk reads writes =
      if ¬ lenOk = true then some .len
      else if ¬ ∀ r ∈ reads ++ writes, r.start + r.count ≤ s.params.nCells then some .bounds
      else if ¬ ∀ w ∈ writes, ∀ r ∈ reads, ¬ w.overlaps r then some .ovl
      else if ¬ ∀ r ∈ reads, ∀ j < r.count, s.cell (r.start + j) ≤ 1 then some .cell
      else none := by
  have hb : ((!(reads ++ writes).all (Range.inBounds s.params.nCells)) = true) ↔
      ¬ ∀ r ∈ reads ++ writes, r.start + r.count ≤ s.params.nCells := by
    rw [Bool.not_eq_true', ← Bool.not_eq_true, List.all_eq_true]
    simp only [Range.inBounds_iff]
  have ho : (writes.any fun w => reads.any w.shares) = true ↔ ¬ ∀ w ∈ writes, ∀ r ∈ reads, ¬ w.overlaps r := by
    simp only [List.any_eq_true, Range.shares_iff]
    push Not
    rfl
  have hc : ((!reads.all s.binaryOn) = true) ↔ ¬ ∀ r ∈ reads, ∀ j < r.count, s.cell (r.start + j) ≤ 1 := by
    rw [Bool.not_eq_true', ← Bool.not_eq_true, List.all_eq_true]
    simp only [State.binaryOn_iff]
  unfold firstFault
  simp only [hb, ho, hc, Bool.not_eq_true', Bool.not_eq_true]

/-- A command that reports no fault writes its outputs (R59). -/
theorem checkThenCommit_of_none {s t : State} {lenOk : Bool} {reads writes : List Range}
    (h : firstFault s lenOk reads writes = none) : checkThenCommit s lenOk reads writes t = t := by
  simp [checkThenCommit, h]

/-- A command that reports a fault does nothing but raise it (R59, R183). -/
theorem checkThenCommit_of_some {s t : State} {lenOk : Bool} {reads writes : List Range} {c : ErrCode}
    (h : firstFault s lenOk reads writes = some c) : checkThenCommit s lenOk reads writes t = s.raise c := by
  simp [checkThenCommit, h]

/-- All that "check, then commit" can do (R59). -/
theorem checkThenCommit_cases (s t : State) (lenOk : Bool) (reads writes : List Range) :
    (∃ c, firstFault s lenOk reads writes = some c ∧ checkThenCommit s lenOk reads writes t = s.raise c) ∨
      (firstFault s lenOk reads writes = none ∧ checkThenCommit s lenOk reads writes t = t) := by
  cases h : firstFault s lenOk reads writes with
  | none => exact .inr ⟨rfl, checkThenCommit_of_none h⟩
  | some c => exact .inl ⟨c, rfl, checkThenCommit_of_some h⟩

/-- A request reports no fault exactly when it passes every check. -/
theorem firstFault_eq_none_iff (s : State) (lenOk : Bool) (reads writes : List Range) :
    firstFault s lenOk reads writes = none ↔
      lenOk = true ∧ (∀ r ∈ reads ++ writes, r.start + r.count ≤ s.params.nCells) ∧
      (∀ w ∈ writes, ∀ r ∈ reads, ¬ w.overlaps r) ∧
      (∀ r ∈ reads, ∀ j < r.count, s.cell (r.start + j) ≤ 1) := by
  rw [firstFault_eq]
  split_ifs with h1 h2 h3 h4
  · simp_all
  · simp only [false_iff]; tauto
  · simp only [false_iff]; tauto
  · simp only [false_iff]; tauto
  · tauto

end Sys2Proof.Machine
end

