-- ==== Sys2Proof/Laws/Commands.lean ====
section
/-! SUPPORT. All that a command can do, said once: it checks its request against the table of R182 and either raises the
first fault or writes its outputs. Proofs about `exec` cite `exec_of_accepts`, `exec_cases` or `exec_eq_next`. -/

namespace Sys2Proof.Machine

/-- The state a command leaves when its request passes every check: its outputs written, nothing else (R59). -/
def committed (i : Instr) (s : State) : State :=
  match i with
  | .a2h => s.setRes (BitVec.ofNat 32 (natOfBits (s.memRead s.src.toNat s.len.toNat)))
  | .h2a => s.memWrite s.dst.toNat (bitsOfWord s.a0 s.len.toNat)
  | .lfsr => s.memWrite s.dst.toNat (lfsrEncode (s.memRead s.src.toNat s.a1.toNat) (s.a0.toNat - s.a1.toNat)
      (s.memRead s.gp.toNat (s.a0.toNat - s.a1.toNat)))
  | .acgen => s.setAc (acGen s.params s.a0)
  | .acvfy => s.setRes (if s.memRead s.src.toNat 72 = (List.range 72).map (airBit (acGen s.params s.a0)) then 1 else 0)
  | .wht => s.memWrite s.dst.toNat (whiten s.params (s.memRead s.src.toNat s.len.toNat) s.a0 s.a1)
  | .uf13 => s.memWrite s.dst.toNat (fec13Decode (s.len.toNat / 3) (s.memRead s.src.toNat s.len.toNat))
  | .uf23 => s.memWrite s.dst.toNat (fec23Decode (s.len.toNat / 15) (s.memRead s.src.toNat s.len.toNat))
  | .f23g => s.memWrite s.dst.toNat
      ((List.range 5).map (fec23Register s.params.fec23Taps (s.memRead s.src.toNat 10)).getLsbD)
  | .crc => s.setRes ((crc16 (s.memRead s.src.toNat s.len.toNat) (uapOf s.a0)).setWidth 32)

/-- Every command is "check, then commit" on the ranges of the table (R59, R83). -/
theorem exec_eq (i : Instr) (s : State) :
    exec i s = .next (checkThenCommit s (lengthLegal i s) (readRanges i s) (writeRanges i s)
      (committed i s)) := by
  cases i <;> rfl

/-- A command always answers a next state; no command stops the machine. -/
theorem exec_eq_next (i : Instr) (s : State) : ∃ t, exec i s = .next t := ⟨_, exec_eq i s⟩

theorem firstFault_eq_none_iff_accepts (i : Instr) (s : State) :
    firstFault s (lengthLegal i s) (readRanges i s) (writeRanges i s) = none ↔ accepts i s := by
  rw [firstFault_eq_none_iff]

/-- A request that passes every check has its outputs written (R59). -/
theorem exec_of_accepts {i : Instr} {s : State} (h : accepts i s) : exec i s = .next (committed i s) := by
  rw [exec_eq, checkThenCommit_of_none ((firstFault_eq_none_iff_accepts i s).mpr h)]

/-- All that a command can do: raise one fault, or write its outputs (R59, R183). -/
theorem exec_cases {i : Instr} {s t : State} (h : exec i s = .next t) :
    (¬ accepts i s ∧ ∃ c, t = s.raise c) ∨ (accepts i s ∧ t = committed i s) := by
  rw [exec_eq, Host.Outcome.next.injEq] at h
  rcases checkThenCommit_cases s (committed i s) (lengthLegal i s) (readRanges i s) (writeRanges i s)
    with ⟨c, hc, he⟩ | ⟨hn, he⟩
  · exact .inl ⟨fun ha => by simp [(firstFault_eq_none_iff_accepts i s).mpr ha] at hc, c, h.symm.trans he⟩
  · exact .inr ⟨(firstFault_eq_none_iff_accepts i s).mp hn, h.symm.trans he⟩

/-- The fault a command reports, in the words of the table (R182, R184). -/
theorem exec_of_rejects {i : Instr} {s : State} (h : ¬ accepts i s) :
    exec i s = .next (s.raise
      (if ¬ lengthLegal i s then .len else if ¬ rangesInside i s then .bounds
        else if ¬ noOverlap i s then .ovl else .cell)) := by
  rw [exec_eq]
  congr 1
  apply checkThenCommit_of_some
  rw [firstFault_eq]
  split_ifs <;> first | rfl | (exfalso; tauto)

/-- What the outputs of a command are: cells from DST on, or RES, or AC, and nothing else (R22, R23, R24). -/
theorem committed_shape (i : Instr) (s : State) :
    (∃ bits, committed i s = s.memWrite s.dst.toNat bits) ∨ (∃ v, committed i s = s.setRes v) ∨
      (∃ v, committed i s = s.setAc v) := by
  cases i with
  | a2h | acvfy | crc => exact .inr (.inl ⟨_, rfl⟩)
  | acgen => exact .inr (.inr ⟨_, rfl⟩)
  | _ => exact .inl ⟨_, rfl⟩

/-- The bits a storing command writes fill exactly its write range (R13). -/
theorem committed_storing {i : Instr} {s : State} {w : Range} (h : accepts i s) (hw : w ∈ writeRanges i s) :
    ∃ bits : List Bool, committed i s = s.memWrite w.start bits ∧ bits.length = w.count := by
  cases i with
  | a2h | acgen | acvfy | crc => simp [writeRanges] at hw
  | lfsr =>
    simp only [writeRanges, List.mem_singleton] at hw
    subst hw
    have hl := h.1
    simp only [lengthLegal, Bool.and_eq_true, decide_eq_true_eq] at hl
    exact ⟨_, rfl, length_lfsrEncode _ (by simp) (by omega)⟩
  | h2a | wht | uf13 | uf23 | f23g =>
    simp only [writeRanges, List.mem_singleton] at hw
    subst hw
    exact ⟨_, rfl, by simp⟩

end Sys2Proof.Machine
end

