-- ==== Sys2Proof/Laws/Decode.lean ====
section
/-! SUPPORT. The two fields of a command word as arithmetic on the word, and the decoder by cases of the word (R80, R85). -/

namespace Sys2Proof

/-- Field ZERO is zero exactly when the word is below 16 (R80). -/
theorem zeroField_eq_zero_iff (w : Word) : zeroField w = 0 ↔ w.toNat / 16 = 0 := by
  rw [← BitVec.toNat_inj]
  have h : (zeroField w).toNat = w.toNat / 16 % 2 ^ 28 := by
    simp [zeroField, BitVec.extractLsb'_toNat, Nat.shiftRight_eq_div_pow]
  have := w.isLt
  rw [h]
  show w.toNat / 16 % 2 ^ 28 = 0 ↔ w.toNat / 16 = 0
  omega

/-- Field OP as a number (R80). -/
theorem opField_toNat (w : Word) : (opField w).toNat = w.toNat % 16 := by
  simp [opField, BitVec.extractLsb'_toNat]

/-- A word with a set ZERO field is illegal (R85). -/
theorem decode_of_zeroField {w : Word} (h : w.toNat / 16 ≠ 0) : decode w = .illegal .zeroFieldSet :=
  if_pos fun h0 => h ((zeroField_eq_zero_iff w).mp h0)

/-- A word with a zero ZERO field is decoded by its OP field (R89). -/
theorem decode_of_lt {w : Word} (h : w.toNat / 16 = 0) : decode w = decodeOp (opField w) :=
  if_neg fun h0 => h0 ((zeroField_eq_zero_iff w).mpr h)

/-- The operation code names a command exactly when it is 1 to 10 (R82, R85). -/
theorem decodeOp_illegal_iff (op : BitVec 4) : (∃ why, decodeOp op = .illegal why) ↔ op = 0 ∨ 0xB ≤ op := by
  constructor
  · rintro ⟨why, h⟩
    revert h
    revert op
    cases why <;> decide
  · intro h
    refine ⟨.reservedOp, ?_⟩
    revert h
    revert op
    decide

/-- A decoded operation code is the low half byte of the command's word (R82). -/
theorem opField_encode_of_decodeOp {op : BitVec 4} {i : Instr} (h : decodeOp op = .legal i) :
    op = opField (encode i) := by
  revert h
  revert op
  cases i <;> decide

end Sys2Proof
end

