-- ==== Sys2Proof/Laws/PerInstr.lean ====
section
/-! SUPPORT. Statements for all commands, one lemma per constructor. `WordOf`: the word of a command has a zero ZERO field,
and the decoder reads the command back from its bits (R80, R82). -/

namespace Sys2Proof.Laws.WordOf

/-- The command is well formed, the word the encoder writes for it has field ZERO zero, and the decoder reads it back. -/
def Statement (i : Instr) : Prop :=
  i.wellFormed = true ∧ zeroField (encode i) = 0 ∧ decodeTableWord 32 (encode i).toNat = some i

theorem a2h : Statement .a2h := by unfold Statement; decide
theorem h2a : Statement .h2a := by unfold Statement; decide
theorem lfsr : Statement .lfsr := by unfold Statement; decide
theorem acgen : Statement .acgen := by unfold Statement; decide
theorem acvfy : Statement .acvfy := by unfold Statement; decide
theorem wht : Statement .wht := by unfold Statement; decide
theorem uf13 : Statement .uf13 := by unfold Statement; decide
theorem uf23 : Statement .uf23 := by unfold Statement; decide
theorem f23g : Statement .f23g := by unfold Statement; decide
theorem crc : Statement .crc := by unfold Statement; decide

end Sys2Proof.Laws.WordOf
end

