-- ==== Sys2Proof/Laws/Step.lean ====
section
/-! SUPPORT. All that a step can do, by the host's next move. -/

namespace Sys2Proof.Machine

/-- With no move pending the block is idle (R20, R191). -/
theorem step_idle {s : State} (h : s.moves = []) : step s = .next s := by
  simp [step, takeMove, h]

/-- A step performs the host's next move (R27). -/
theorem step_move {s : State} {m : HostMove} {rest : List HostMove} (h : s.moves = m :: rest) :
    step s = performMove m { s with moves := rest } := by
  simp [step, takeMove, h]

/-- HostCommand(w) is HostWriteReg(8, w) (R18). -/
theorem performMove_command (w : Word) (s : State) : performMove (.command w) s = issue w s := rfl

/-- Halted means that STATUS.ERR is not zero (R186). -/
theorem State.halted_iff (s : State) : s.halted = true ↔ s.err ≠ 0 := by simp [State.halted]

theorem issue_halted {s : State} (h : s.err ≠ 0) (w : Word) : issue w s = .next s := by
  rw [issue, if_pos (s.halted_iff.mpr h)]

theorem issue_legal {s : State} (h : s.err = 0) {w : Word} {i : Instr} (hw : decode w = .legal i) :
    issue w s = exec i s := by
  simp [issue, State.halted, h, hw]

theorem issue_illegal {s : State} (h : s.err = 0) {w : Word} {why : Illegal} (hw : decode w = .illegal why) :
    issue w s = .next (s.raise .op) := by
  simp [issue, State.halted, h, hw]

/-- Issuing a word always answers a next state (R89): ignored, ERR_OP, or the command's own. -/
theorem issue_cases (w : Word) (s : State) :
    (s.err ≠ 0 ∧ issue w s = .next s) ∨
    (s.err = 0 ∧ (∃ why, decode w = .illegal why) ∧ issue w s = .next (s.raise .op)) ∨
    (s.err = 0 ∧ ∃ i, decode w = .legal i ∧ issue w s = exec i s) := by
  by_cases h : s.err = 0
  · cases hw : decode w with
    | legal i => exact .inr (.inr ⟨h, i, rfl, issue_legal h hw⟩)
    | illegal why => exact .inr (.inl ⟨h, ⟨why, rfl⟩, issue_illegal h hw⟩)
  · exact .inl ⟨h, issue_halted h w⟩

theorem issue_eq_next (w : Word) (s : State) : ∃ t, issue w s = .next t := by
  rcases issue_cases w s with ⟨_, h⟩ | ⟨_, _, h⟩ | ⟨_, i, _, h⟩
  · exact ⟨_, h⟩
  · exact ⟨_, h⟩
  · obtain ⟨t, ht⟩ := exec_eq_next i s
    exact ⟨t, h.trans ht⟩

/-- What a host register write does: it sets an operand register, issues a word, or changes nothing (R34). -/
theorem hostWriteReg_of_ge (n : Nat) (h : 6 ≤ n) (h8 : n ≠ 8) (v : Word) (s : State) :
    hostWriteReg n v s = .next s := by
  unfold hostWriteReg
  split <;> first | omega | rfl

end Sys2Proof.Machine
end

