-- ==== Sys2Proof/Machine/HostProgram.lean ====
section
/-! DEFINITION. The way this spec writes host programs (R87) and its ten pseudo-instructions (R88), as lists of host moves.
Lines joined by `;` are lists joined by `++` (conflict C14). -/

namespace Sys2Proof.Machine.HostProgram

/-- `SET r, v`, the register by its number 0 to 5 (R87). -/
def set (n : Nat) (v : Word) : List HostMove := [.writeReg n v]

/-- `CELLS a, b0 b1 ... bk` (R87). -/
def cells : Nat → List Byte → List HostMove
  | _, [] => []
  | a, b :: bs => .writeCell a b :: cells (a + 1) bs

/-- `RUN m` (R87). -/
def run (i : Instr) : List HostMove := [.command (encode i)]

/-- `RUNW w` (R87). -/
def runw (w : Word) : List HostMove := [.command w]

/-- `GET r`, the register by its number (R87). -/
def get (n : Nat) : List HostMove := [.readReg n]

/-- `PEEK a, n` (R87). -/
def peek (a n : Nat) : List HostMove := (List.range n).map fun i => .readCell (a + i)

/-- `RESET` (R87). -/
def reset : List HostMove := [.reset]

/-- `A2H src, width` (R88). -/
def a2h (src width : Word) : List HostMove := set 0 src ++ set 2 width ++ run .a2h

/-- `H2A value, width, dst` (R88). -/
def h2a (value width dst : Word) : List HostMove := set 3 value ++ set 2 width ++ set 1 dst ++ run .h2a

/-- `LFSR data, n, k, g, dst` (R88). -/
def lfsr (data n k g dst : Word) : List HostMove :=
  set 0 data ++ set 3 n ++ set 4 k ++ set 5 g ++ set 1 dst ++ run .lfsr

/-- `ACGEN lap` (R88). -/
def acgen (lap : Word) : List HostMove := set 3 lap ++ run .acgen

/-- `ACVFY buf, lap` (R88). -/
def acvfy (buf lap : Word) : List HostMove := set 0 buf ++ set 3 lap ++ run .acvfy

/-- `WHT src, clock, length, skip, dst` (R88). -/
def wht (src clock length skip dst : Word) : List HostMove :=
  set 0 src ++ set 3 clock ++ set 2 length ++ set 4 skip ++ set 1 dst ++ run .wht

/-- `UF13 src, length, dst` (R88). -/
def uf13 (src length dst : Word) : List HostMove := set 0 src ++ set 2 length ++ set 1 dst ++ run .uf13

/-- `UF23 src, length, dst` (R88). -/
def uf23 (src length dst : Word) : List HostMove := set 0 src ++ set 2 length ++ set 1 dst ++ run .uf23

/-- `F23G src, dst` (R88). -/
def f23g (src dst : Word) : List HostMove := set 0 src ++ set 1 dst ++ run .f23g

/-- `CRC src, length, uap` (R88). -/
def crc (src length uap : Word) : List HostMove := set 0 src ++ set 2 length ++ set 3 uap ++ run .crc

end Sys2Proof.Machine.HostProgram
end

