-- ==== Sys2Proof/Tests/Slice0.lean ====
section
/-! SUPPORT. The model's own tests. Expected values are those of spec/95_test_vectors.md or of the rule named. The second half
shows, for every statement with hypotheses, concrete states and operands that meet them. -/

namespace Sys2Proof.Tests

open Sys2Proof Sys2Proof.Machine Sys2Proof.Claims

/-- Cells from `a` on, holding these values. -/
def cellsFrom (a : Nat) (vs : List Byte) : List Host.Cell := vs.mapIdx fun i v => (a + i, v)

/-- A state with these operand registers and these written cells, all else as after reset. -/
def st (src dst len a0 a1 gp : Word) (mem : List Host.Cell) : State :=
  { State.reset with src := src, dst := dst, len := len, a0 := a0, a1 := a1, gp := gp, mem := mem }

/-- The next state of an outcome, if it is one. -/
def nextOf : Host.Outcome State Fault Refusal → Option State
  | .next t => some t
  | .fault _ | .refused _ => none

/-- The values of the `n` cells from `a` on after a step, read from the state's data. -/
def outCells (o : Host.Outcome State Fault Refusal) (a n : Nat) : List (Option Byte) :=
  match nextOf o with
  | some t => (List.range n).map fun i => lookup t.mem (a + i)
  | none => []

/-- Written cells with these values, as `outCells` shows them. -/
def written (vs : List Byte) : List (Option Byte) := vs.map some

/-- RES and ERR after a step. -/
def resErr (o : Host.Outcome State Fault Refusal) : Option (Word × BitVec 4) := (nextOf o).map fun t => (t.res, t.err)

/-! ### Decoding: the words of R82 written out bit by bit -/

theorem test_decode_a2h : decode 0b00000000000000000000000000000001#32 = .legal .a2h := by decide
theorem test_decode_h2a : decode 0b00000000000000000000000000000010#32 = .legal .h2a := by decide
theorem test_decode_lfsr : decode 0b00000000000000000000000000000011#32 = .legal .lfsr := by decide
theorem test_decode_acgen : decode 0b00000000000000000000000000000100#32 = .legal .acgen := by decide
theorem test_decode_acvfy : decode 0b00000000000000000000000000000101#32 = .legal .acvfy := by decide
theorem test_decode_wht : decode 0b00000000000000000000000000000110#32 = .legal .wht := by decide
theorem test_decode_uf13 : decode 0b00000000000000000000000000000111#32 = .legal .uf13 := by decide
theorem test_decode_uf23 : decode 0b00000000000000000000000000001000#32 = .legal .uf23 := by decide
theorem test_decode_f23g : decode 0b00000000000000000000000000001001#32 = .legal .f23g := by decide
theorem test_decode_crc : decode 0b00000000000000000000000000001010#32 = .legal .crc := by decide

/-- The illegal words of 95_test_vectors.md section 2.1, and the reserved codes of R85. -/
theorem test_decode_illegal :
    decode 0x00000000 = .illegal .reservedOp ∧ decode 0x0000000B = .illegal .reservedOp ∧
    decode 0x0000000C = .illegal .reservedOp ∧ decode 0x0000000D = .illegal .reservedOp ∧
    decode 0x0000000E = .illegal .reservedOp ∧ decode 0x0000000F = .illegal .reservedOp ∧
    decode 0x00000010 = .illegal .zeroFieldSet ∧ decode 0x00000014 = .illegal .zeroFieldSet ∧
    decode 0x00000104 = .illegal .zeroFieldSet ∧ decode 0x80000001 = .illegal .zeroFieldSet ∧
    decode 0xFFFFFFFF = .illegal .zeroFieldSet := by decide

theorem test_decodeTableWord :
    decodeTableWord 32 4 = some .acgen ∧ decodeTableWord 32 0x14 = none ∧ decodeTableWord 8 0xA = some .crc ∧
    decodeTableWord 40 1 = none := by decide

/-! ### WellFormed: one ill-formed term per check (R62, R196, R81) -/

theorem test_wellFormed_writeCell :
    (HostMove.writeCell 4096 0).wellFormed 4096 = false ∧ (HostMove.writeCell 4095 0xFF).wellFormed 4096 = true := by decide

theorem test_wellFormed_readCell :
    (HostMove.readCell 4096).wellFormed 4096 = false ∧ (HostMove.readCell 4095).wellFormed 4096 = true := by decide

theorem test_wellFormed_others :
    (HostMove.writeReg 12 0).wellFormed 4096 = true ∧ (HostMove.command 0).wellFormed 4096 = true ∧
    Instr.lfsr.wellFormed = true ∧ programWellFormed 4096 (HostProgram.peek 4094 3) = false ∧
    programWellFormed 4096 (HostProgram.crc 0 16 0x47) = true := by decide

/-! ### One step per command: the vectors of 95_test_vectors.md section 2 -/

theorem test_a2h : resErr (exec .a2h (st 16 0 4 0 0 0 (cellsFrom 16 [1, 0, 1, 1]))) = some (0xD, 0) := by decide

theorem test_a2h_top : resErr (exec .a2h (st 4092 0 4 0 0 0 (cellsFrom 4092 [1, 0, 1, 0]))) = some (5, 0) := by decide

theorem test_h2a : outCells (exec .h2a (st 0 0 4 0xFFFFFFF5 0 0 [(4, 7)])) 0 5 = written [1, 0, 1, 0, 7] := by decide

theorem test_h2a_bounds :
    resErr (exec .h2a (st 0 4095 2 1 0 0 [])) = some (0, 3) ∧
    resErr (exec .h2a (st 0 5000 33 0 0 0 [])) = some (0, 2) := by decide

theorem test_lfsr :
    outCells (exec .lfsr (st 0 4 0 7 4 100 (cellsFrom 0 [1, 0, 1, 1] ++ cellsFrom 100 [1, 1, 0]))) 0 7 =
      written [1, 0, 1, 1, 1, 0, 0] := by decide

theorem test_lfsr_shared_generator :
    outCells (exec .lfsr (st 0 200 0 7 4 0 (cellsFrom 0 [1, 1, 0, 1]))) 200 3 = written [0, 0, 0] := by decide

theorem test_acgen :
    (nextOf (exec .acgen (st 0 0 0 0xAB9E8B33 0 0 []))).map State.ac = some 0x5475C58CC73345E72A := by decide +kernel

theorem test_acgen_words :
    (nextOf (exec .acgen (st 0 0 0 0x00123456 0 0 []))).map
      (fun t => (hostReadReg 9 t, hostReadReg 10 t, hostReadReg 11 t)) =
      some (0x503E461A, 0x65A8B120, 0xD5000000) := by decide +kernel

/-- The 72 air bits of LAP 0x9E8B33, from 95_test_vectors.md section 2.5. -/
def airBits9E8B33 : List Byte :=
  [0, 1, 0, 1, 0, 1, 0, 0, 0, 1, 1, 1, 0, 1, 0, 1, 1, 1, 0, 0, 0, 1, 0, 1] ++
  [1, 0, 0, 0, 1, 1, 0, 0, 1, 1, 0, 0, 0, 1, 1, 1, 0, 0, 1, 1, 0, 0, 1, 1] ++
  [0, 1, 0, 0, 0, 1, 0, 1, 1, 1, 1, 0, 0, 1, 1, 1, 0, 0, 1, 0, 1, 0, 1, 0]

theorem test_acvfy_match :
    resErr (exec .acvfy (st 4024 0 0 0xFF9E8B33 0 0 (cellsFrom 4024 airBits9E8B33))) = some (1, 0) := by decide +kernel

theorem test_acvfy_mismatch :
    resErr (exec .acvfy { st 0 0 0 0x009E8B33 0 0 (cellsFrom 0 (airBits9E8B33.set 40 1)) with res := 7 }) =
      some (0, 0) := by decide +kernel

theorem test_wht :
    outCells (exec .wht (st 0 200 16 0 0 0 (cellsFrom 0 [1, 1, 1, 1, 0, 0, 0, 0, 1, 0, 1, 0, 0, 1, 0, 1]))) 200 16 =
      written [0, 1, 1, 0, 0, 0, 1, 1, 1, 1, 1, 0, 1, 0, 1, 0] := by decide

theorem test_wht_wraps :
    outCells (exec .wht (st 0 200 8 0x37 0 0 (cellsFrom 0 [0, 0, 0, 0, 0, 0, 0, 0]))) 200 8 =
      written [1, 1, 1, 1, 0, 0, 0, 1] := by decide

theorem test_uf13 :
    outCells (exec .uf13 (st 0 24 24 0 0 0
      (cellsFrom 0 [0, 0, 0, 0, 0, 1, 0, 1, 0, 1, 0, 0, 0, 1, 1, 1, 0, 1, 1, 1, 0, 1, 1, 1]))) 24 8 =
      written [0, 0, 0, 0, 1, 1, 1, 1] := by decide

theorem test_uf13_source_example :
    outCells (exec .uf13 (st 0 64 12 0 0 0 (cellsFrom 0 [1, 1, 0, 0, 1, 1, 1, 0, 1, 0, 0, 0]))) 64 4 =
      written [1, 1, 1, 0] := by decide

theorem test_uf23 :
    outCells (exec .uf23 (st 0 64 30 0 0 0 (cellsFrom 0
      ([1, 0, 1, 1, 0, 0, 1, 0, 1, 0] ++ [1, 1, 1, 1, 0] ++ [0, 1, 0, 1, 0, 1, 0, 1, 0, 1] ++ [0, 0, 1, 0, 0])))) 64 20 =
      written ([1, 0, 1, 1, 0, 0, 1, 0, 1, 0] ++ [0, 1, 0, 1, 0, 1, 0, 1, 0, 1]) := by decide

theorem test_uf23_check_cells :
    resErr (exec .uf23 (st 0 100 15 0 0 0 (cellsFrom 0
      ([1, 0, 1, 1, 0, 0, 1, 0, 1, 0] ++ [0, 0, 2, 0, 1])))) = some (0, 5) ∧
    resErr (exec .uf23 (st 0 10 15 0 0 0 [])) = some (0, 4) := by decide

theorem test_f23g :
    outCells (exec .f23g (st 0 10 0 0 0 0 (cellsFrom 0 [1, 0, 1, 1, 0, 0, 1, 0, 1, 0]))) 10 5 =
      written [0, 0, 0, 0, 1] := by decide

theorem test_f23g_rows :
    outCells (exec .f23g (st 5 0 0 0 0 0 (cellsFrom 5 [1, 1, 0, 0, 0, 0, 0, 0, 0, 0]))) 0 5 =
      written [1, 0, 1, 1, 1] := by decide

theorem test_crc :
    resErr (exec .crc (st 0 0 16 0x47 0 0 (cellsFrom 0 [0, 1, 0, 0, 1, 0, 0, 0, 1, 0, 1, 0, 0, 1, 1, 0]))) =
      some (0x696A, 0) := by decide

theorem test_crc_seed :
    resErr (exec .crc (st 0 0 3 0x147 0 0 (cellsFrom 0 [1, 0, 1]))) = some (0x529D, 0) ∧
    resErr (exec .crc (st 4096 0 0 0x47 0 0 [])) = some (0x47, 0) := by decide

/-! ### Faults, halting, reset (95_test_vectors.md section 2.11) -/

theorem test_fault_priority :
    resErr (exec .a2h (st 4090 0 33 0 0 0 [])) = some (0, 2) ∧
    resErr (exec .wht (st 0 4 4093 0 0 0 [])) = some (0, 3) ∧
    resErr (exec .wht (st 0 0 8 0 0 0 [(3, 2)])) = some (0, 4) ∧
    resErr (step (State.issueNext (st 0 0 33 0 0 0 []) 0x0000001A)) = some (0, 1) := by decide

theorem test_halted :
    nextOf (step ({ st 0 0 4 0 0 0 [] with err := 2 }.issueNext 0)) = some { st 0 0 4 0 0 0 [] with err := 2 } := by
  decide +kernel

theorem test_no_wrap : resErr (exec .a2h (st 0xFFFFFFFF 0 2 0 0 0 [])) = some (0, 3) := by decide

theorem test_reset :
    nextOf (step { st 1 2 3 4 5 6 [(0, 1)] with err := 5, res := 7, ac := 8, moves := [.reset, .readReg 7] }) =
      some { State.reset with resets := 1, moves := [.readReg 7] } := by decide +kernel

/-! ### Other parameters than the defaults (R8) -/

/-- The smallest R_MAX, a BM of 16 cells, no taps, and an index table of zeros. -/
def small : Params :=
  { Tables.defaults with nCells := 16, rMax := 34, fec23Taps := 0, whitenIdx := Vector.replicate 64 0 }

/-- A state of the machine with these parameters. -/
def stSmall (src dst len a0 a1 gp : Word) (mem : List Host.Cell) : State :=
  { st src dst len a0 a1 gp mem with params := small }

/-- R56 with N_CELLS = 16, R111 with R_MAX = 34. -/
theorem test_params_bounds :
    resErr (exec .a2h (stSmall 12 0 4 0 0 0 (cellsFrom 12 [1, 0, 1, 1]))) = some (0xD, 0) ∧
    resErr (exec .a2h (stSmall 13 0 4 0 0 0 [])) = some (0, 3) ∧
    resErr (exec .lfsr (stSmall 0 0 0 35 0 0 [])) = some (0, 2) ∧
    resErr (exec .lfsr (stSmall 0 0 0 34 0 0 [])) = some (0, 3) := by decide

/-- R156 with no taps leaves five zeros; R140 with all indexes 0 starts at WHITEN_SEQ[0], whatever the clock. -/
theorem test_params_tables :
    outCells (exec .f23g (stSmall 0 10 0 0 0 0 (cellsFrom 0 [1, 0, 1, 1, 0, 0, 1, 0, 1, 0]))) 10 5 =
      written [0, 0, 0, 0, 0] ∧
    outCells (exec .wht (stSmall 0 8 8 0x2B 0 0 (cellsFrom 0 [0, 0, 0, 0, 0, 0, 0, 0]))) 8 8 =
      written [1, 1, 1, 0, 0, 0, 1, 1] := by decide

/-- R31, R210: a reset keeps the parameters. -/
theorem test_params_reset :
    (nextOf (step { stSmall 1 2 3 4 5 6 [] with moves := [.reset] })).map (fun t => (t.params.nCells, t.params.rMax)) =
      some (16, 34) := by decide

/-- The constraints of R8 and of 93_implementation_defined.md: met by the defaults and by `small`, and one breach of each. -/
theorem test_params_legal :
    Tables.defaults.Legal ∧ small.Legal ∧ ¬ { Tables.defaults with nCells := 0 }.Legal ∧
    ¬ { Tables.defaults with nCells := 2 ^ 32 + 1 }.Legal ∧ ¬ { Tables.defaults with rMax := 33 }.Legal ∧
    ¬ { Tables.defaults with pn := Vector.replicate 9 0x10 }.Legal := by decide

/-! ### Witnesses: for each statement with hypotheses, concrete values that meet them, clause by clause -/

/-- The state after reset with these host moves to come. -/
def sending (ms : List HostMove) : State := { State.reset with moves := ms }

/-- The same, halted with code 2. -/
def haltedSending (ms : List HostMove) : State := { State.reset with moves := ms, err := 2 }

theorem test_witness_DecodeEncodeAgree : Instr.lfsr.wellFormed = true ∧ decode 3 = .legal .lfsr := by decide

theorem test_witness_IllegalWordRaisesErrOp :
    State.reset.err = 0 ∧ illegalWord 0x10 ∧ illegalWord 0 ∧ illegalWord 0xB ∧ illegalWord 0xF ∧ ¬ illegalWord 1 ∧
    ¬ illegalWord 0xA := by
  decide

theorem test_witness_StepRunsDecodedCommand_halted :
    ((haltedSending [.command 4]).moves = .command 4 :: [] ∨ (haltedSending [.command 4]).moves = .writeReg 8 4 :: []) ∧
    (haltedSending [.command 4]).err ≠ 0 := by decide

theorem test_witness_StepRunsDecodedCommand_legal :
    ((sending [.writeReg 8 4]).moves = .command 4 :: [] ∨ (sending [.writeReg 8 4]).moves = .writeReg 8 4 :: []) ∧
    (sending [.writeReg 8 4]).err = 0 ∧ decode 4 = .legal .acgen ∧ Instr.acgen.wellFormed = true := by decide

theorem test_witness_StepRunsDecodedCommand_illegal :
    (sending [.command 0x14]).moves = .command 0x14 :: [] ∧ (sending [.command 0x14]).err = 0 ∧
    decode 0x14 = .illegal .zeroFieldSet := by decide

theorem test_witness_PlacedWordRunsNext : (sending []).err = 0 := by decide

theorem test_witness_HaltedBlockIgnoresCommands : (haltedSending []).err ≠ 0 ∧ 5 ≤ 5 ∧
    4095 < State.reset.params.nCells := by decide

theorem test_witness_ErrorCodeIsSticky :
    ∃ t, step (haltedSending [.command 0]) = .next t ∧ (haltedSending [.command 0]).err ≠ 0 ∧
      ∀ rest, (haltedSending [.command 0]).moves ≠ .reset :: rest :=
  ⟨_, rfl, by decide, fun _ h => by cases h⟩

/-- Length 33 with all else wrong too; length 32 at 4065; an in-place request; a cell holding 2; a good request. -/
theorem test_witness_FaultCausesAndPriority :
    illegalWord 0x1A ∧ ¬ lengthLegal .a2h (st 4090 0 33 0 0 0 []) ∧
    (lengthLegal .a2h (st 4065 0 32 0 0 0 []) ∧ ¬ rangesInside .a2h (st 4065 0 32 0 0 0 [])) ∧
    (lengthLegal .wht (st 0 7 8 0 0 0 []) ∧ rangesInside .wht (st 0 7 8 0 0 0 []) ∧
      ¬ noOverlap .wht (st 0 7 8 0 0 0 [])) ∧
    (lengthLegal .wht (st 0 2 2 0 0 0 [(0, 1), (1, 2)]) ∧ rangesInside .wht (st 0 2 2 0 0 0 [(0, 1), (1, 2)]) ∧
      noOverlap .wht (st 0 2 2 0 0 0 [(0, 1), (1, 2)]) ∧ ¬ cellsBinary .wht (st 0 2 2 0 0 0 [(0, 1), (1, 2)])) ∧
    accepts .wht (st 0 2 2 0 0 0 [(0, 1), (1, 0)]) := by decide

theorem test_witness_A2hReadsInteger :
    32 < (st 0 0 33 0 0 0 []).len.toNat ∧
    (¬ inside State.reset 4065 32 ∧ (st 4065 0 32 0 0 0 []).len.toNat ≤ 32) ∧
    (inside State.reset 4094 2 ∧ ¬ binary (st 4094 0 2 0 0 0 [(4094, 1), (4095, 2)]) 4094 2) ∧
    (inside State.reset 4094 2 ∧ binary (st 4094 0 2 0 0 0 [(4094, 1), (4095, 0)]) 4094 2) ∧
    (inside State.reset 4096 0 ∧ binary (st 4096 0 0 0 0 0 []) 4096 0) := by decide

theorem test_witness_H2aWritesBits :
    32 < (st 0 0 33 0 0 0 []).len.toNat ∧ ((st 0 4065 32 0 0 0 []).len.toNat ≤ 32 ∧ ¬ inside State.reset 4065 32) ∧
    ((st 0 4064 32 0 0 0 []).len.toNat ≤ 32 ∧ inside State.reset 4064 32) := by decide

theorem test_witness_LfsrWritesRedundancy_faults :
    ((st 0 0 0 4 4 0 []).a0.toNat ≤ (st 0 0 0 4 4 0 []).a1.toNat ∨ State.reset.params.rMax < 4 - 4) ∧
    ((st 0 0 0 69 4 0 []).a0.toNat ≤ (st 0 0 0 69 4 0 []).a1.toNat ∨ State.reset.params.rMax < 69 - 4) ∧
    (4 < 7 ∧ 7 - 4 ≤ State.reset.params.rMax ∧ ¬(inside State.reset 0 4 ∧ inside State.reset 4094 3 ∧
      inside State.reset 200 3)) ∧
    (inside State.reset 0 4 ∧ inside State.reset 100 3 ∧ inside State.reset 3 3 ∧ ¬(apart 3 3 0 4 ∧ apart 3 3 100 3)) ∧
    (inside State.reset 4 3 ∧ apart 4 3 0 4 ∧ apart 4 3 100 3 ∧
      ¬(binary (st 0 4 0 7 4 100 (cellsFrom 0 [1, 0, 1, 1] ++ cellsFrom 100 [1, 3, 0])) 0 4 ∧
        binary (st 0 4 0 7 4 100 (cellsFrom 0 [1, 0, 1, 1] ++ cellsFrom 100 [1, 3, 0])) 100 3)) := by decide

/-- The longest register, r = R_MAX = 64, and no data at all, k = 0. -/
theorem test_witness_LfsrWritesRedundancy_completes :
    0 < 64 ∧ 64 - 0 ≤ State.reset.params.rMax ∧ inside State.reset 0 0 ∧ inside State.reset 100 64 ∧
    inside State.reset 4032 64 ∧ apart 4032 64 0 0 ∧
    apart 4032 64 100 64 ∧ binary (st 0 4032 0 64 0 100 (cellsFrom 100 (List.replicate 64 1))) 0 0 ∧
    binary (st 0 4032 0 64 0 100 (cellsFrom 100 (List.replicate 64 1))) 100 64 := by decide +kernel

theorem test_witness_AcvfyComparesExactly_faults :
    ¬ inside State.reset 4025 72 ∧ inside State.reset 4024 72 ∧
    ¬ binary (st 4024 0 0 0x9E8B33 0 0 (cellsFrom 4024 (airBits9E8B33.set 71 2))) 4024 72 := by decide +kernel

/-- The code of LAP 0x9E8B33 in cells 4024 to 4095, for both comparisons. -/
theorem test_witness_AcvfyComparesExactly_completes :
    binary (st 4024 0 0 0x9E8B33 0 0 (cellsFrom 4024 airBits9E8B33)) 4024 72 ∧
    (∀ t < 72, bitAt (st 4024 0 0 0x9E8B33 0 0 (cellsFrom 4024 airBits9E8B33)) (4024 + t) =
      airBit (acGen Tables.defaults 0x9E8B33) t) ∧
    bitAt (st 4024 0 0 0x9E8B34 0 0 (cellsFrom 4024 airBits9E8B33)) (4024 + 5) ≠ airBit (acGen Tables.defaults 0x9E8B34) 5 := by
  decide +kernel

theorem test_witness_WhtWhitens :
    ¬(inside State.reset 0 8 ∧ inside State.reset 4089 8) ∧ (inside State.reset 0 8 ∧ inside State.reset 7 8 ∧
     ¬ apart 7 8 0 8) ∧
    (inside State.reset 0 2 ∧ inside State.reset 2 2 ∧ apart 2 2 0 2 ∧ ¬ binary (st 0 2 2 0 0 0 [(0, 1), (1, 2)]) 0 2) ∧
    (inside State.reset 4094 2 ∧ apart 4094 2 0 2 ∧ binary (st 0 4094 2 0 0 0 [(0, 1), (1, 1)]) 0 2) ∧
    (inside State.reset 0 0 ∧ apart 0 0 0 0 ∧ binary (st 0 0 0 0 0 0 []) 0 0) := by decide

theorem test_witness_Uf13TakesMajority :
    (st 0 0 4 0 0 0 []).len.toNat % 3 ≠ 0 ∧
    ((st 0 4095 6 0 0 0 []).len.toNat % 3 = 0 ∧ ¬(inside State.reset 0 6 ∧ inside State.reset 4095 2)) ∧
    (inside State.reset 0 6 ∧ inside State.reset 5 2 ∧ ¬ apart 5 2 0 6) ∧
    (inside State.reset 3 1 ∧ apart 3 1 0 3 ∧ ¬ binary (st 0 3 3 0 0 0 [(0, 1), (1, 1), (2, 2)]) 0 3) ∧
    (inside State.reset 0 3 ∧ binary (st 0 3 3 0 0 0 [(0, 1), (1, 1), (2, 0)]) 0 3) := by decide

theorem test_witness_Uf23CopiesDataBits :
    (st 0 0 16 0 0 0 []).len.toNat % 15 ≠ 0 ∧
    ((st 0 4087 15 0 0 0 []).len.toNat % 15 = 0 ∧ ¬(inside State.reset 0 15 ∧ inside State.reset 4087 10)) ∧
    (inside State.reset 0 15 ∧ inside State.reset 14 10 ∧ ¬ apart 14 10 0 15) ∧
    (inside State.reset 15 10 ∧ apart 15 10 0 15 ∧
     ¬ binary (st 0 15 15 0 0 0 (cellsFrom 0 (List.replicate 14 1 ++ [2]))) 0 15) ∧
    binary (st 0 15 15 0 0 0 (cellsFrom 0 (List.replicate 15 1))) 0 15 := by decide

theorem test_witness_F23gWritesCheckBits :
    ¬(inside State.reset 4087 10 ∧ inside State.reset 0 5) ∧ (inside State.reset 5 10 ∧ inside State.reset 1 5 ∧
     ¬ apart 1 5 5 10) ∧
    (inside State.reset 0 5 ∧ apart 0 5 5 10 ∧ ¬ binary (st 5 0 0 0 0 0 (cellsFrom 5 (List.replicate 9 1 ++ [2]))) 5 10) ∧
    (inside State.reset 4086 10 ∧ apart 0 5 4086 10 ∧
      binary (st 4086 0 0 0 0 0 (cellsFrom 4086 (List.replicate 10 1))) 4086 10) := by decide

theorem test_witness_CrcWritesRemainder :
    ¬ inside State.reset 4000 97 ∧ (inside State.reset 4000 96 ∧ ¬ binary (st 0 0 3 0 0 0 (cellsFrom 0 [1, 0, 3])) 0 3) ∧
    binary (st 0 0 3 0 0 0 (cellsFrom 0 [1, 0, 1])) 0 3 := by decide

theorem test_witness_LfsrEncodeIsShiftRegister :
    [true, true, false].length = 3 ∧ 0 < 3 ∧
    true = (false ^^ (lfsrEncode [false, true] 3 [true, true, false]).getD 2 false) ∧ 1 ≤ 1 ∧ 1 ≤ 2 ∧ 2 < 3 := by decide

theorem test_witness_LfsrEncodeIsPolynomialDivision :
    [true].length = 1 ∧ 0 < 1 ∧ [true, false].length = [true, true].length := by decide

/-- Another generator and another pseudo-noise sequence than the defaults. -/
def otherTables : Params :=
  { Tables.defaults with gAc := Vector.replicate 35 true, pn := Vector.replicate 9 0x0F }

theorem test_witness_AccessCodeLayout_params :
    otherTables.Legal ∧ otherTables.trl0 = Tables.defaults.trl0 ∧ otherTables.trl1 = Tables.defaults.trl1 ∧
    otherTables.brk1 = Tables.defaults.brk1 ∧ otherTables.pre0 = Tables.defaults.pre0 ∧
    otherTables.pre1 = Tables.defaults.pre1 := by decide

theorem test_witness_AccessCodeLayout : ∃ (s pn : Nat → Bool) (d : List Bool),
    s = airBit (acGen otherTables 0x9E8B33) ∧ pn = (fun t => (unpack otherTables.pn.toList).getD t false) ∧
    d = (List.range 30).map (fun i => (lapData 0x9E8B33).getD i false ^^ pn (38 + i)) := ⟨_, _, _, rfl, rfl, rfl⟩

theorem test_witness_AccessCodeDeterminedByLap :
    (0xAB9E8B33 : Word).toNat % 2 ^ 24 = (0x009E8B33 : Word).toNat % 2 ^ 24 ∧
    Tables.defaults.brk1.extractLsb' 2 6 = 0 ∧
    acGen Tables.defaults 0xAB9E8B33 = acGen Tables.defaults 0x009E8B33 := by decide +kernel

theorem test_witness_FecParityIsLinear : (List.replicate 10 true).length = 10 := by decide

theorem test_witness_CrcIsPolynomialRemainder : [true, false].length = [false, false].length := by decide

theorem test_witness_H2aThenA2hRoundTrip :
    (st 0 4064 32 0xFFFFFFFF 0 0 []).len.toNat ≤ 32 ∧ inside State.reset 4064 32 := by decide

/-- The third buffer is the first one again. -/
theorem test_witness_WhitenTwiceRestores :
    inside State.reset 0 2 ∧ inside State.reset 2 2 ∧ apart 2 2 0 2 ∧ apart 0 2 2 2 ∧
    binary (st 0 2 2 0x2B 5 0 [(0, 1), (1, 0)]) 0 2 := by decide

theorem test_witness_WhiteningSplits :
    (0 : Word).toNat % 127 = ((126 : Word).toNat + [true].length) % 127 := by decide

theorem test_witness_Uf13CorrectsOneErrorPerGroup :
    (st 0 6 6 0 0 0 (cellsFrom 0 [1, 0, 1, 0, 0, 0])).len.toNat = 3 * 2 ∧ inside State.reset 0 (3 * 2) ∧
    inside State.reset 6 2 ∧
    apart 6 2 0 (3 * 2) ∧ binary (st 0 6 6 0 0 0 (cellsFrom 0 [1, 0, 1, 0, 0, 0])) 0 (3 * 2) ∧
    ∀ i < 2, ∃ e < 3, ∀ j < 3, j ≠ e →
      (st 0 6 6 0 0 0 (cellsFrom 0 [1, 0, 1, 0, 0, 0])).cell (0 + (3 * i + j)) = if i == 0 then 1 else 0 := by decide

theorem test_witness_F23gThenUf23RoundTrip :
    (st 0 10 0 0 0 0 []).dst.toNat = (st 0 10 0 0 0 0 []).src.toNat + 10 ∧ inside State.reset 0 15 ∧
    binary (st 0 10 0 0 0 0 (cellsFrom 0 (List.replicate 10 1))) 0 10 ∧ inside State.reset 15 10 ∧
    apart 15 10 0 15 := by decide

theorem test_witness_AcvfyAcceptsGeneratedCode_request :
    ∃ t, exec .acgen (st 0 0 0 0x9E8B33 0 0 []) = .next t ∧ t.ac = acGen Tables.defaults 0x9E8B33 ∧
      (st 4024 0 0 0x9E8B33 0 0 []).params = (st 0 0 0 0x9E8B33 0 0 []).params ∧
      inside (st 4024 0 0 0x9E8B33 0 0 []) 4024 72 :=
  ⟨_, rfl, rfl, rfl, by decide⟩

theorem test_witness_AcvfyAcceptsGeneratedCode_cells :
    ∀ k < 72, (st 4024 0 0 0x9E8B33 0 0 (cellsFrom 4024 airBits9E8B33)).cell (4024 + k) =
      if airBit (acGen Tables.defaults 0x9E8B33) k then 1 else 0 := by decide +kernel

theorem test_witness_AcvfyHasNoTolerance :
    binary (st 4024 0 0 0x9E8B33 0 0 (cellsFrom 4024 (airBits9E8B33.set 71 1))) 4024 72 ∧ 71 < 72 ∧
    (st 4024 0 0 0x9E8B33 0 0 (cellsFrom 4024 (airBits9E8B33.set 71 1))).cell (4024 + 71) =
      (if airBit (acGen Tables.defaults 0x9E8B33) 71 then 0 else 1) := by decide +kernel

/-- The last cell of two inverted, and seed bit 7 inverted. -/
theorem test_witness_CrcDetectsSingleChange :
    (st 0 0 2 0x47 0 0 [(0, 1), (1, 0)]).params = (st 0 0 2 0x47 0 0 [(0, 1), (1, 1)]).params ∧
    inside State.reset 0 2 ∧ binary (st 0 0 2 0x47 0 0 [(0, 1), (1, 0)]) 0 2 ∧
    binary (st 0 0 2 0x47 0 0 [(0, 1), (1, 1)]) 0 2 ∧
    (∃ k < 2, ∀ j < 2, ((st 0 0 2 0x47 0 0 [(0, 1), (1, 0)]).cell (0 + j) =
      (st 0 0 2 0x47 0 0 [(0, 1), (1, 1)]).cell (0 + j) ↔ j ≠ k)) ∧
    (∃ k < 8, ∀ j < 8, ((0x47 : Word).getLsbD j = (0xC7 : Word).getLsbD j ↔ j ≠ k)) := by decide +kernel

theorem test_witness_CommandsKeepOperandRegisters : ∃ t, exec .crc (st 0 0 33 0 0 0 []) = .next t := ⟨_, rfl⟩

theorem test_witness_OutputsHaveTheirWriters :
    (∃ t, exec .h2a (st 0 0 1 1 0 0 []) = .next t) ∧
    ¬(accepts .h2a (st 0 0 1 1 0 0 []) ∧ (Instr.h2a = .a2h ∨ Instr.h2a = .acvfy ∨ Instr.h2a = .crc)) ∧
    ¬(accepts .h2a (st 0 0 1 1 0 0 []) ∧ Instr.h2a = .acgen) ∧
    ¬(accepts .h2a (st 0 0 33 1 0 0 []) ∧ Instr.h2a = .h2a) := ⟨⟨_, rfl⟩, by decide, by decide, by decide⟩

theorem test_witness_CoreWritesOnlyBits :
    accepts .h2a (st 0 4095 1 1 0 0 []) ∧ ⟨4095, 1⟩ ∈ writeRanges .h2a (st 0 4095 1 1 0 0 []) ∧
    Range.has ⟨4095, 1⟩ 4095 ∧ ∀ w ∈ writeRanges .h2a (st 0 4095 1 1 0 0 []), ¬ w.has 4094 := by decide

/-- Two states that differ in RES, in AC and in a cell the command does not read; one request good, one not. -/
theorem test_witness_ResultDependsOnOperandsOnly :
    (st 0 0 1 2 0 0 [(0, 1), (1, 1)]).params =
      ({ st 0 9 1 2 8 7 [(0, 1), (1, 0)] with res := 5, ac := 6 } : State).params ∧
    operandRegs .crc (st 0 0 1 2 0 0 [(0, 1), (1, 1)]) =
      operandRegs .crc { st 0 9 1 2 8 7 [(0, 1), (1, 0)] with res := 5, ac := 6 } ∧
    (∀ r ∈ readRanges .crc (st 0 0 1 2 0 0 [(0, 1), (1, 1)]), ∀ j < r.count,
      (st 0 0 1 2 0 0 [(0, 1), (1, 1)]).cell (r.start + j) =
        ({ st 0 9 1 2 8 7 [(0, 1), (1, 0)] with res := 5, ac := 6 } : State).cell (r.start + j)) ∧
    accepts .crc (st 0 0 1 2 0 0 [(0, 1), (1, 1)]) ∧ ¬ accepts .crc (st 0 0 1 2 0 0 [(0, 2)]) ∧
    accepts .h2a (st 0 4095 1 1 0 0 []) ∧ Range.has ⟨4095, 1⟩ 4095 := by decide +kernel

theorem test_witness_HostRegisterAccess : ((12 : Nat) = 6 ∨ 12 ≤ 12) ∧ (12 : Nat) ≤ 12 := by decide

theorem test_witness_HostCellAccess : 4095 < State.reset.params.nCells ∧ 0 < State.reset.params.nCells := by decide

theorem test_witness_HostResetRestoresResetState : (haltedSending [.reset]).moves = .reset :: [] := by decide

theorem test_witness_IdleKeepsState : (sending []).moves = [] := by decide

theorem test_witness_MovesAreCarriedOutInOrder :
    (sending [.readCell 4095, .reset]).moves = .readCell 4095 :: [.reset] ∧
    (HostMove.readCell 4095).wellFormed 4096 = true := by decide

theorem test_witness_StepStopsOnlyOutsideMemory :
    step (sending [.readCell 4096]) = .fault .noSuchCell ∧ State.reset.params.nCells ≤ 4096 := ⟨rfl, by decide⟩

theorem test_witness_ParametersNeverChange :
    ∃ t, step ({ stSmall 0 0 0 0 0 0 [] with moves := [.reset] }) = .next t := ⟨_, rfl⟩

theorem test_witness_ResetStateIsLegal : small.Legal := by decide

theorem test_witness_ResetValues : State.resetWith small = State.resetWith small := rfl

/-- The machine with 16 cells: the last cell is in, the next one is out. -/
theorem test_witness_other_size :
    inside (stSmall 15 0 1 0 0 0 []) 15 1 ∧ ¬ inside (stSmall 16 0 1 0 0 0 []) 16 1 ∧
    (stSmall 0 15 1 1 0 0 [(15, 1)]).Inv ∧ ¬ (stSmall 0 15 1 1 0 0 [(16, 1)]).Inv := by decide

theorem test_witness_LegalStateIsKept :
    (st 0 4095 1 1 0 0 [(0, 1), (4094, 7)]).Inv ∧
    ∃ t, step ((st 0 4095 1 1 0 0 [(0, 1), (4094, 7)]).issueNext 2) = .next t := ⟨by decide, _, rfl⟩

theorem test_witness_StatusReadsErrorCode : ({ State.reset with err := 5 } : State).Inv := by decide

end Sys2Proof.Tests
end

section
/-! The host's register moves (R34): the words of STATUS and AC that the host reads, and every register number. -/

namespace Sys2Proof.Machine

/-- The host reads ERR in bits 3:0 of STATUS and zeros above (R26). -/
theorem State.status_eq_ofNat (s : State) : s.status = BitVec.ofNat 32 s.err.toNat :=
  (BitVec.ofNat_toNat 32 s.err).symm

/-- Four neighbouring bytes in packed order are one 32-bit field of the 72 bits (R24, R53). -/
theorem packedByte_append_four (v : BitVec 72) {b : Nat} (h : b ≤ 5) :
    packedByte v b ++ packedByte v (b + 1) ++ packedByte v (b + 2) ++ packedByte v (b + 3) =
      v.extractLsb' (8 * (5 - b)) 32 := by
  simp only [packedByte]
  rw [BitVec.extractLsb'_append_extractLsb'_eq_extractLsb' (by omega),
    BitVec.extractLsb'_append_extractLsb'_eq_extractLsb' (by omega),
    BitVec.extractLsb'_append_extractLsb'_eq_extractLsb' (by omega),
    show 8 * (8 - (b + 3)) = 8 * (5 - b) by omega]

theorem extractLsb'_eq_ofNat_div {w : Nat} (v : BitVec w) (start len : Nat) :
    v.extractLsb' start len = BitVec.ofNat len (v.toNat / 2 ^ start) := by
  rw [BitVec.extractLsb', Nat.shiftRight_eq_div_pow]

theorem State.acWord_zero (s : State) : s.acWord 0 = BitVec.ofNat 32 (s.ac.toNat / 2 ^ 40) :=
  (packedByte_append_four s.ac (b := 0) (by decide)).trans (extractLsb'_eq_ofNat_div s.ac 40 32)

theorem State.acWord_one (s : State) : s.acWord 1 = BitVec.ofNat 32 (s.ac.toNat / 2 ^ 8) :=
  (packedByte_append_four s.ac (b := 4) (by decide)).trans (extractLsb'_eq_ofNat_div s.ac 8 32)

/-- ACW2 holds byte 8 of AC in bits 31:24 and zeros below (R24). -/
theorem State.acWord_two (s : State) : s.acWord 2 = BitVec.ofNat 32 (s.ac.toNat % 2 ^ 8 * 2 ^ 24) := by
  have hword : (s.acWord 2).toNat = s.ac.toNat % 2 ^ 8 * 2 ^ 24 :=
    calc (s.acWord 2).toNat
        = (packedByte s.ac 8).toNat <<< 24 ||| 0 := BitVec.toNat_append (packedByte s.ac 8) (0 : BitVec 24)
      _ = s.ac.toNat % 2 ^ 8 * 2 ^ 24 := by simp [packedByte, Nat.shiftLeft_eq]
  rw [← hword, BitVec.ofNat_toNat, BitVec.setWidth_eq]

/-- A read of a register number that does not exist returns 0 (R34). -/
theorem hostReadReg_of_ge {n : Nat} (h : 12 ≤ n) (s : State) : hostReadReg n s = 0 := by
  obtain ⟨k, rfl⟩ := Nat.exists_eq_add_of_le' h
  rfl

/-- The register writes that are neither an operand's nor a command's change nothing (R34). -/
theorem performMove_writeReg_ignored {n : Nat}
    (h : n = 6 ∨ n = 7 ∨ n = 9 ∨ n = 10 ∨ n = 11 ∨ 12 ≤ n) (v : Word) (s : State) :
    performMove (.writeReg n v) s = .next s :=
  hostWriteReg_of_ge n (by omega) (by omega) v s

end Sys2Proof.Machine

open Sys2Proof.Machine

/-- Settles O38: the operand registers and the command port by the definition of the moves, the ignored numbers by
`performMove_writeReg_ignored`, STATUS and the words of AC by their lemmas above. -/
theorem hostRegisterAccess : Obligations.HostRegisterAccess := by
  refine ⟨fun s v => ⟨rfl, rfl, rfl, rfl, rfl, rfl, rfl, fun n hn => performMove_writeReg_ignored hn v s⟩,
    fun s n => rfl, fun s => ⟨rfl, rfl, rfl, rfl, rfl, rfl, rfl, ?status, rfl, ?acw0, ?acw1, ?acw2, ?beyond⟩⟩
  case status => exact congrArg some s.status_eq_ofNat
  case acw0 => exact congrArg some s.acWord_zero
  case acw1 => exact congrArg some s.acWord_one
  case acw2 => exact congrArg some s.acWord_two
  case beyond => exact fun n hn => congrArg some (hostReadReg_of_ge hn s)
end

section
/-! The host's cell moves (R62): what the two moves do in a state that has the cell. -/

namespace Sys2Proof.Machine

section
variable {s : State} {a : Nat} (ha : a < s.params.nCells)
include ha

theorem performMove_writeCell_of_lt (v : Byte) : performMove (.writeCell a v) s = .next (s.writeCell a v) :=
  if_pos ha

theorem performMove_readCell_of_lt : performMove (.readCell a) s = .next s :=
  if_pos ha

theorem hostReply_readCell_of_lt : hostReply (.readCell a) s = some ((s.cell a).setWidth 32) :=
  if_pos ha

end

theorem State.cell_writeCell_same (s : State) (a : Nat) (v : Byte) : (s.writeCell a v).cell a = v := by
  rw [State.cell_writeCell, if_pos rfl]

theorem State.cell_writeCell_of_ne (s : State) {a x : Nat} (v : Byte) (h : x ≠ a) :
    (s.writeCell a v).cell x = s.cell x := by
  rw [State.cell_writeCell, if_neg h]

end Sys2Proof.Machine

open Sys2Proof.Machine

/-- Settles O39: below N_CELLS the write leads to `State.writeCell`, which changes the memory alone, and the read to the
state itself. -/
theorem hostCellAccess : Obligations.HostCellAccess := by
  intro s a ha
  refine ⟨fun v => ⟨s.writeCell a v, performMove_writeCell_of_lt ha v, rfl, s.cell_writeCell_same a v, ?frame⟩,
    performMove_readCell_of_lt ha, hostReply_readCell_of_lt ha⟩
  case frame => exact fun x hx => s.cell_writeCell_of_ne v hx
end

section
/-! The illegal words (R85): the decoder refuses exactly them, and the other words are ten in number. -/

namespace Sys2Proof.Machine

/-- Operation codes 0 and 0xB to 0xF, as numbers read from the word (R80, R85). -/
theorem decodeOp_opField_illegal_iff (w : Word) :
    (∃ why, decodeOp (opField w) = .illegal why) ↔ w.toNat % 16 = 0 ∨ 0xB ≤ w.toNat % 16 := by
  rw [decodeOp_illegal_iff, ← BitVec.toNat_inj, BitVec.le_def, opField_toNat]
  exact Iff.rfl

/-- The decoder tests field ZERO first, and then field OP alone (R89). -/
theorem decode_illegal_iff (w : Word) : (∃ why, decode w = .illegal why) ↔ illegalWord w := by
  by_cases hz : w.toNat / 16 = 0
  · rw [decode_of_lt hz, decodeOp_opField_illegal_iff]
    exact (or_iff_right (not_not_intro hz)).symm
  · exact iff_of_true ⟨_, decode_of_zeroField hz⟩ (.inl hz)

/-- The words that are not illegal, as numbers (R82). -/
theorem not_illegalWord_iff (w : Word) : ¬ illegalWord w ↔ 1 ≤ w.toNat ∧ w.toNat ≤ 10 := by
  unfold illegalWord
  omega

/-- The words of R82, in the order of the table. -/
def commandWords : List Word :=
  [.a2h, .h2a, .lfsr, .acgen, .acvfy, .wht, .uf13, .uf23, .f23g, .crc].map encode

theorem map_toNat_commandWords : commandWords.map BitVec.toNat = List.range' 1 10 := by decide

theorem mem_commandWords_iff (w : Word) : w ∈ commandWords ↔ ¬ illegalWord w :=
  calc w ∈ commandWords
      ↔ w.toNat ∈ commandWords.map BitVec.toNat := (List.mem_map_of_injective BitVec.toNat_injective).symm
    _ ↔ 1 ≤ w.toNat ∧ w.toNat ≤ 10 := by rw [map_toNat_commandWords, List.mem_range'_1]; omega
    _ ↔ ¬ illegalWord w := (not_illegalWord_iff w).symm

/-- An illegal word raises ERR_OP and changes nothing else, in a block that is not halted (R85). -/
theorem performMove_command_of_illegalWord {s : State} {w : Word} (h : s.err = 0) (hw : illegalWord w) :
    performMove (.command w) s = .next { s with err := 1 } := by
  obtain ⟨why, hwhy⟩ := (decode_illegal_iff w).mpr hw
  exact issue_illegal h hwhy

end Sys2Proof.Machine

open Sys2Proof.Machine

/-- Settles O3: the illegal words by the decoder's two tests, the ten others as the words of R82, and the fault by
`issue_illegal`. -/
theorem illegalWordRaisesErrOp : Obligations.IllegalWordRaisesErrOp :=
  ⟨decode_illegal_iff, ⟨commandWords, rfl, by decide, mem_commandWords_iff⟩,
    fun _ _ h hw => performMove_command_of_illegalWord h hw⟩
end

section
/-! The faults of a command by the check of R182 that fails first (R184), as the claims write the faulted state. -/

namespace Sys2Proof.Machine

section
variable {i : Instr} {s : State}

theorem exec_of_not_lengthLegal (hl : ¬ lengthLegal i s) : exec i s = .next { s with err := 2 } := by
  rw [exec_of_rejects fun ⟨h, _⟩ => hl h, if_pos hl]
  rfl

theorem exec_of_not_rangesInside (hl : lengthLegal i s) (hr : ¬ rangesInside i s) :
    exec i s = .next { s with err := 3 } := by
  rw [exec_of_rejects fun ⟨_, h, _⟩ => hr h, if_neg (not_not_intro hl), if_pos hr]
  rfl

theorem exec_of_not_cellsBinary (hl : lengthLegal i s) (hr : rangesInside i s) (ho : noOverlap i s)
    (hc : ¬ cellsBinary i s) : exec i s = .next { s with err := 5 } := by
  rw [exec_of_rejects fun ⟨_, _, _, h⟩ => hc h, if_neg (not_not_intro hl), if_neg (not_not_intro hr),
    if_neg (not_not_intro ho)]
  rfl

end

end Sys2Proof.Machine
end

section
/-! Bits as integers and cells (R51, R67), and what the claims and a later read see of the bits MemWrite stores (R13). -/

namespace Sys2Proof.Machine

open Sys2Proof.Claims

theorem toNat_cellOfBit (b : Bool) : (cellOfBit b).toNat = b.toNat := by cases b <;> rfl

/-- On a binary cell, the bit and the cell are the same number (R58). -/
theorem toNat_bitOfCell {c : Byte} (h : c ≤ 1) : (bitOfCell c).toNat = c.toNat := by
  rw [← toNat_cellOfBit, cellOfBit_bitOfCell h]

/-- The integer read from binary cells, as the sum of R100 over the cells. -/
theorem natOfBits_memRead {s : State} {a n : Nat} (hb : binary s a n) :
    natOfBits (s.memRead a n) = ∑ i ∈ Finset.range n, (s.cell (a + i)).toNat * 2 ^ i := by
  rw [natOfBits_eq_sum, State.length_memRead]
  refine Finset.sum_congr rfl fun i hi => ?_
  have hi : i < n := Finset.mem_range.mp hi
  rw [State.getD_memRead s hi, toNat_bitOfCell (hb i hi)]

/-- A bit of a register as arithmetic on its value (R51). -/
theorem getLsbD_eq_decide_div_mod {w : Nat} (v : BitVec w) (j : Nat) :
    v.getLsbD j = decide (v.toNat / 2 ^ j % 2 = 1) :=
  Nat.testBit_eq_decide_div_mod_eq

theorem natOfBits_bitsOfWord_eq_sum (v : Word) (w : Nat) :
    natOfBits (bitsOfWord v w) = ∑ i ∈ Finset.range w, (v.getLsbD i).toNat * 2 ^ i := by
  rw [natOfBits_eq_sum, length_bitsOfWord]
  exact Finset.sum_congr rfl fun i hi => by rw [getD_bitsOfWord v (Finset.mem_range.mp hi)]

/-- The low `w` bits of a register stand for its value modulo 2^w (R51). -/
theorem natOfBits_bitsOfWord (v : Word) (w : Nat) : natOfBits (bitsOfWord v w) = v.toNat % 2 ^ w := by
  rw [natOfBits_bitsOfWord_eq_sum]
  induction w with
  | zero => simp [Nat.mod_one]
  | succ w ih =>
    rw [Finset.sum_range_succ, ih, Nat.mod_pow_succ, ← Nat.toNat_testBit, mul_comm]
    rfl

theorem State.cell_memWrite_add (s : State) (a : Nat) {bits : List Bool} {j : Nat} (h : j < bits.length) :
    (s.memWrite a bits).cell (a + j) = cellOfBit (bits.getD j false) := by
  rw [State.cell_memWrite, if_pos (by omega), Nat.add_sub_cancel_left]

theorem State.cell_memWrite_of_outside (s : State) {a x : Nat} {bits : List Bool}
    (h : x < a ∨ a + bits.length ≤ x) : (s.memWrite a bits).cell x = s.cell x := by
  rw [State.cell_memWrite, if_neg (by omega)]

/-- Every cell MemWrite stores to is binary (R67). -/
theorem binary_memWrite (s : State) (a : Nat) {n : Nat} {bits : List Bool} (hn : bits.length = n) :
    binary (s.memWrite a bits) a n := by
  subst hn
  intro j hj
  rw [s.cell_memWrite_add a hj]
  exact cellOfBit_le_one _

/-- MemRead gives back what MemWrite stored in the same range (R13). -/
theorem State.memRead_memWrite (s : State) (a : Nat) {n : Nat} {bits : List Bool} (hn : bits.length = n) :
    (s.memWrite a bits).memRead a n = bits := by
  subst hn
  refine List.ext_getElem (State.length_memRead ..) fun j _ hj => ?_
  rw [State.getElem_memRead, s.cell_memWrite_add a hj, bitOfCell_cellOfBit, List.getD_eq_getElem _ _ hj]

/-- MemWrite is what the claims call storing exactly its bits (R13). -/
theorem storesExactly_memWrite (s : State) (a : Nat) {n : Nat} {bits : List Bool} {f : Nat → Bool}
    (hn : bits.length = n) (hf : ∀ j < n, bits.getD j false = f j) :
    storesExactly s (s.memWrite a bits) a n f := by
  subst hn
  refine ⟨s.memWrite_eq a bits, fun j hj => ?_, fun x hx => s.cell_memWrite_of_outside hx⟩
  rw [s.cell_memWrite_add a hj, hf j hj, cellOfBit]

end Sys2Proof.Machine
end

section
/-! A2H and H2A (R100 to R102): their rows of the tables of R83 and R182, and what they do when no check fails. -/

namespace Sys2Proof.Machine

open Sys2Proof.Claims

theorem lengthLegal_a2h_iff (s : State) : lengthLegal .a2h s ↔ s.len.toNat ≤ 32 := decide_eq_true_iff

theorem lengthLegal_h2a_iff (s : State) : lengthLegal .h2a s ↔ s.len.toNat ≤ 32 := decide_eq_true_iff

theorem rangesInside_a2h_iff (s : State) : rangesInside .a2h s ↔ inside s s.src.toNat s.len.toNat :=
  List.forall_mem_singleton

theorem rangesInside_h2a_iff (s : State) : rangesInside .h2a s ↔ inside s s.dst.toNat s.len.toNat :=
  List.forall_mem_singleton

/-- A2H writes no cell, so ERR_OVL cannot occur (R100). -/
theorem noOverlap_a2h (s : State) : noOverlap .a2h s := List.forall_mem_nil _

theorem cellsBinary_a2h_iff (s : State) : cellsBinary .a2h s ↔ binary s s.src.toNat s.len.toNat :=
  List.forall_mem_singleton

/-- H2A reads no cell, so ERR_OVL and ERR_CELL cannot occur (R101). -/
theorem accepts_h2a_iff (s : State) :
    accepts .h2a s ↔ s.len.toNat ≤ 32 ∧ inside s s.dst.toNat s.len.toNat := by
  simp [accepts, lengthLegal_h2a_iff, rangesInside_h2a_iff, noOverlap, cellsBinary, readRanges]

theorem exec_a2h_of_binary {s : State} (hl : s.len.toNat ≤ 32) (hr : inside s s.src.toNat s.len.toNat)
    (hb : binary s s.src.toNat s.len.toNat) :
    exec .a2h s = .next (s.setRes (BitVec.ofNat 32 (natOfBits (s.memRead s.src.toNat s.len.toNat)))) :=
  exec_of_accepts ⟨(lengthLegal_a2h_iff s).mpr hl, (rangesInside_a2h_iff s).mpr hr, noOverlap_a2h s,
    (cellsBinary_a2h_iff s).mpr hb⟩

theorem exec_h2a_of_inside {s : State} (hl : s.len.toNat ≤ 32) (hr : inside s s.dst.toNat s.len.toNat) :
    exec .h2a s = .next (s.memWrite s.dst.toNat (bitsOfWord s.a0 s.len.toNat)) :=
  exec_of_accepts ((accepts_h2a_iff s).mpr ⟨hl, hr⟩)

end Sys2Proof.Machine

open Sys2Proof.Machine

/-- Settles O9: each fault by the first check that fails, and RES by reading the binary cells as the sum of R100. -/
theorem a2hReadsInteger : Obligations.A2hReadsInteger := by
  intro s
  refine ⟨fun hl => exec_of_not_lengthLegal ?len, fun hl hr => exec_of_not_rangesInside ?legal ?outside,
    fun hl hr hb => exec_of_not_cellsBinary ?legal' ?inside (noOverlap_a2h s) ?cells, fun hl hr hb => ?result⟩
  case len => exact fun h => hl.not_ge ((lengthLegal_a2h_iff s).mp h)
  case legal | legal' => exact (lengthLegal_a2h_iff s).mpr hl
  case outside => exact fun h => hr ((rangesInside_a2h_iff s).mp h)
  case inside => exact (rangesInside_a2h_iff s).mpr hr
  case cells => exact fun h => hb ((cellsBinary_a2h_iff s).mp h)
  case result => rw [exec_a2h_of_binary hl hr hb, natOfBits_memRead hb, State.setRes_eq]

/-- Settles O10: each fault by the first check that fails, and the cells by `storesExactly_memWrite`. -/
theorem h2aWritesBits : Obligations.H2aWritesBits := by
  intro s
  refine ⟨fun hl => exec_of_not_lengthLegal ?len, fun hl hr => exec_of_not_rangesInside ?legal ?outside,
    fun hl hr => ⟨_, exec_h2a_of_inside hl hr, storesExactly_memWrite s _ (length_bitsOfWord _ _) ?bits⟩⟩
  case len => exact fun h => hl.not_ge ((lengthLegal_h2a_iff s).mp h)
  case legal => exact (lengthLegal_h2a_iff s).mpr hl
  case outside => exact fun h => hr ((rangesInside_h2a_iff s).mp h)
  case bits => exact fun j hj => by rw [getD_bitsOfWord _ hj, getLsbD_eq_decide_div_mod]

/-- Settles O25: A2H reads back the bits H2A stored, which stand for A0 modulo 2^LEN. -/
theorem h2aThenA2hRoundTrip : Obligations.H2aThenA2hRoundTrip := by
  intro s hl hr
  have hlen : (bitsOfWord s.a0 s.len.toNat).length = s.len.toNat := length_bitsOfWord _ _
  refine ⟨_, exec_h2a_of_inside hl hr, ?_⟩
  rw [← natOfBits_bitsOfWord, ← congrArg natOfBits (s.memRead_memWrite s.dst.toNat hlen)]
  exact exec_a2h_of_binary (s := { s.memWrite s.dst.toNat (bitsOfWord s.a0 s.len.toNat) with src := s.dst }) hl hr
    (binary_memWrite s s.dst.toNat hlen)
end

section
/-! Bit sequences as polynomials over GF(2) (R113): the polynomial of a sequence by its shape, its degree, and that it
determines a sequence of known length. -/

namespace Sys2Proof.Claims

open Polynomial

/-- A bit as a constant polynomial over GF(2). -/
noncomputable def polyOfBit (b : Bool) : (ZMod 2)[X] := if b then 1 else 0

@[simp] theorem polyOfBit_false : polyOfBit false = 0 := rfl

/-- Exclusive-or is addition in GF(2). -/
theorem polyOfBit_xor (a b : Bool) : polyOfBit (a ^^ b) = polyOfBit a + polyOfBit b := by
  cases a <;> cases b <;> simp [polyOfBit, CharTwo.add_self_eq_zero]

/-- Conjunction is multiplication in GF(2). -/
theorem polyOfBit_and (a b : Bool) : polyOfBit (a && b) = polyOfBit a * polyOfBit b := by
  cases a <;> simp [polyOfBit]

@[simp] theorem polyOf_nil : polyOf [] = 0 := rfl

@[simp] theorem polyOf_cons (b : Bool) (bs : List Bool) : polyOf (b :: bs) = polyOfBit b + X * polyOf bs := by
  rw [polyOf, List.length_cons, Finset.sum_range_succ', add_comm, polyOf, Finset.mul_sum]
  simp [polyOfBit, pow_succ']

theorem polyOf_append (as bs : List Bool) : polyOf (as ++ bs) = polyOf as + X ^ as.length * polyOf bs := by
  induction as with
  | nil => simp
  | cons a as ih =>
    rw [List.cons_append, polyOf_cons, polyOf_cons, ih, List.length_cons]
    ring

@[simp] theorem polyOf_replicate_false (n : Nat) : polyOf (List.replicate n false) = 0 := by
  induction n with
  | zero => rfl
  | succ n ih => simp [List.replicate_succ, ih]

theorem polyOf_zipWith_xor {as bs : List Bool} (h : as.length = bs.length) :
    polyOf (List.zipWith xor as bs) = polyOf as + polyOf bs := by
  induction as generalizing bs with
  | nil => simp [List.length_eq_zero_iff.mp h.symm]
  | cons a as ih =>
    cases bs with
    | nil => simp at h
    | cons b bs =>
      rw [List.zipWith_cons_cons, polyOf_cons, ih (Nat.succ.inj h), polyOfBit_xor, polyOf_cons, polyOf_cons]
      ring

theorem polyOf_map_and (c : Bool) (bs : List Bool) : polyOf (bs.map (c && ·)) = polyOfBit c * polyOf bs := by
  induction bs with
  | nil => simp
  | cons b bs ih =>
    rw [List.map_cons, polyOf_cons, ih, polyOfBit_and, polyOf_cons]
    ring

theorem coeff_polyOf (bs : List Bool) (i : Nat) : (polyOf bs).coeff i = if bs.getD i false then 1 else 0 := by
  induction bs generalizing i with
  | nil => simp
  | cons b bs ih =>
    cases i with
    | zero => cases b <;> simp [polyOfBit]
    | succ i => cases b <;> simp [polyOfBit, ih, coeff_one]

theorem degree_polyOf_lt (bs : List Bool) : (polyOf bs).degree < bs.length := by
  refine (degree_lt_iff_coeff_zero _ _).mpr fun i hi => ?_
  rw [coeff_polyOf, List.getD_eq_default _ _ hi]
  rfl

/-- Two bit sequences of one length with one polynomial are equal. -/
theorem polyOf_injective {as bs : List Bool} (hl : as.length = bs.length) (h : polyOf as = polyOf bs) : as = bs := by
  refine List.ext_getElem hl fun i ha hb => ?_
  have hi := congrArg (fun p => p.coeff i) h
  simp only [coeff_polyOf, List.getD_eq_getElem _ _ ha, List.getD_eq_getElem _ _ hb] at hi
  revert hi
  cases as[i] <;> cases bs[i] <;> simp

end Sys2Proof.Claims
end

section
/-! LfsrEncode (R110, R112, R113): the register bit by bit, and as division by the generator's polynomial (R114). -/

namespace Sys2Proof.Machine

open Polynomial Sys2Proof.Claims

section
variable {g cw : List Bool} (hcw : cw.length = g.length)
include hcw

/-- The feedback bit comes from the highest position (R113). -/
theorem getLastD_register : cw.getLastD false = cw.getD (g.length - 1) false := by
  rw [List.getLastD_eq_getLast?, List.getLast?_eq_getElem?, List.getD_eq_getElem?_getD, hcw]

variable (hg : 0 < g.length)
include hg

theorem getD_lfsrStep_zero (d : Bool) :
    (lfsrStep g d cw).getD 0 false = ((d ^^ cw.getD (g.length - 1) false) && g.getD 0 false) := by
  rw [← getLastD_register hcw, lfsrStep]
  cases g with
  | nil => simp at hg
  | cons g0 g => simp

theorem getD_lfsrStep_succ (d : Bool) {j : Nat} (hj : j + 1 < g.length) :
    (lfsrStep g d cw).getD (j + 1) false =
      (cw.getD j false ^^ ((d ^^ cw.getD (g.length - 1) false) && g.getD (j + 1) false)) := by
  rw [← getLastD_register hcw, lfsrStep, List.getD_eq_getElem _ _ (by simp; omega),
    List.getD_eq_getElem _ _ (show j < cw.length by omega), List.getD_eq_getElem _ _ hj]
  simp

/-- Shifting the register multiplies by x; the bit that leaves it is the coefficient of x^r (R114). -/
theorem polyOf_shift :
    polyOf (false :: cw.dropLast) + X ^ g.length * polyOfBit (cw.getLastD false) = X * polyOf cw := by
  have hne : cw ≠ [] := List.ne_nil_of_length_pos (by omega)
  obtain ⟨low, top, rfl⟩ := (List.eq_nil_or_concat' cw).resolve_left hne
  have hlen : g.length = low.length + 1 := by simpa using hcw.symm
  rw [hlen, List.dropLast_concat, List.getLastD_concat, polyOf_append, polyOf_cons, polyOf_cons, polyOf_nil,
    polyOfBit_false]
  ring

/-- One step replaces C by x C + d x^r, up to a multiple of G (R114). -/
theorem polyOf_lfsrStep (d : Bool) :
    polyOf (lfsrStep g d cw) = X * polyOf cw + X ^ g.length * polyOfBit d +
      polyOfBit (d ^^ cw.getLastD false) * (X ^ g.length + polyOf g) := by
  have hlen : (false :: cw.dropLast).length = (g.map ((d ^^ cw.getLastD false) && ·)).length := by
    simp
    omega
  have hstep : lfsrStep g d cw =
      List.zipWith xor (false :: cw.dropLast) (g.map ((d ^^ cw.getLastD false) && ·)) := by
    rw [List.zipWith_map_right]
    rfl
  rw [hstep, polyOf_zipWith_xor hlen, polyOf_map_and, ← polyOf_shift hcw hg, polyOfBit_xor]
  linear_combination (-(X ^ g.length * (polyOfBit d + polyOfBit (cw.getLastD false)))) *
    (CharTwo.two_eq_zero : (2 : (ZMod 2)[X]) = 0)

end

section
variable {g : List Bool} {r : Nat} (hg : g.length = r)
include hg

/-- The generator's polynomial, its leading one included (R113). -/
theorem monic_generator : (X ^ r + polyOf g).Monic :=
  monic_X_pow_add (hg ▸ degree_polyOf_lt g)

theorem degree_generator : (X ^ r + polyOf g).degree = (r : WithBot ℕ) := by
  have hlow : (polyOf g).degree < (X ^ r : (ZMod 2)[X]).degree := by
    rw [degree_X_pow, ← hg]
    exact degree_polyOf_lt g
  rw [degree_add_eq_left_of_degree_lt hlow, degree_X_pow]

variable (hr : 0 < r)
include hr

/-- Horner's rule for x^r D (R114). -/
theorem dvd_sub_polyOf_lfsrEncode (d : List Bool) :
    (X ^ r + polyOf g) ∣ X ^ r * polyOf d - polyOf (lfsrEncode d r g) := by
  induction d with
  | nil => simp
  | cons b d ih =>
    have hlen : (lfsrEncode d r g).length = g.length := (length_lfsrEncode d hg hr).trans hg.symm
    obtain ⟨q, hq⟩ := ih
    refine ⟨X * q - polyOfBit (b ^^ (lfsrEncode d r g).getLastD false), ?_⟩
    rw [lfsrEncode_cons, polyOf_lfsrStep hlen (hg.symm ▸ hr), hg, polyOf_cons]
    linear_combination X * hq

/-- LfsrEncode computes the remainder of x^r D by G (R114). -/
theorem polyOf_lfsrEncode (d : List Bool) :
    polyOf (lfsrEncode d r g) = (X ^ r * polyOf d) %ₘ (X ^ r + polyOf g) := by
  have hm := monic_generator hg
  have hdeg : (polyOf (lfsrEncode d r g)).degree < (X ^ r + polyOf g).degree := by
    rw [degree_generator hg]
    simpa only [length_lfsrEncode d hg hr] using degree_polyOf_lt (lfsrEncode d r g)
  rw [modByMonic_eq_of_dvd_sub hm (dvd_sub_polyOf_lfsrEncode hg hr d), (modByMonic_eq_self_iff hm).mpr hdeg]

/-- LfsrEncode sees the data only through its polynomial. -/
theorem lfsrEncode_congr {d e : List Bool} (h : polyOf d = polyOf e) : lfsrEncode d r g = lfsrEncode e r g :=
  polyOf_injective (by simp only [length_lfsrEncode _ hg hr])
    (by rw [polyOf_lfsrEncode hg hr, polyOf_lfsrEncode hg hr, h])

theorem lfsrEncode_zipWith_xor {d e : List Bool} (h : d.length = e.length) :
    lfsrEncode (List.zipWith xor d e) r g = List.zipWith xor (lfsrEncode d r g) (lfsrEncode e r g) := by
  have hd := length_lfsrEncode d hg hr
  have he := length_lfsrEncode e hg hr
  refine polyOf_injective ?_ ?_
  · rw [List.length_zipWith, hd, he, length_lfsrEncode _ hg hr, min_self]
  · rw [polyOf_zipWith_xor (hd.trans he.symm)]
    simp only [polyOf_lfsrEncode hg hr]
    rw [polyOf_zipWith_xor h, mul_add, add_modByMonic]

theorem lfsrEncode_replicate_false (k : Nat) :
    lfsrEncode (List.replicate k false) r g = List.replicate r false :=
  lfsrEncode_congr hg hr (e := []) (polyOf_replicate_false k)

theorem lfsrEncode_append_replicate_false (d : List Bool) (z : Nat) :
    lfsrEncode (d ++ List.replicate z false) r g = lfsrEncode d r g :=
  lfsrEncode_congr hg hr (by rw [polyOf_append, polyOf_replicate_false, mul_zero, add_zero])

/-- The systematic word, redundancy first, is a multiple of the generator's polynomial (R114). -/
theorem dvd_polyOf_systematic (d : List Bool) :
    (X ^ r + polyOf g) ∣ polyOf (lfsrEncode d r g ++ d) := by
  rw [polyOf_append, length_lfsrEncode d hg hr, ← CharTwo.sub_eq_add (polyOf _)]
  exact dvd_sub_comm.mp (dvd_sub_polyOf_lfsrEncode hg hr d)

end

end Sys2Proof.Machine

open Sys2Proof.Machine

/-- Settles O19: the elements of one step, for a register of the generator's length. -/
theorem lfsrEncodeIsShiftRegister : Obligations.LfsrEncodeIsShiftRegister := by
  rintro g d b _ rfl hg
  have hlen : (lfsrEncode d g.length g).length = g.length := length_lfsrEncode d rfl hg
  refine ⟨lfsrEncode_nil _ g, hlen, ?_⟩
  rintro _ rfl
  rw [lfsrEncode_cons]
  refine ⟨getD_lfsrStep_zero hlen hg b, fun j h1 hj => ?_⟩
  obtain ⟨i, rfl⟩ := Nat.exists_eq_add_of_le' h1
  exact getD_lfsrStep_succ hlen hg b hj

/-- Settles O20: Horner's rule gives the remainder; the consequences follow, since a register of r bits is determined by
its polynomial. -/
theorem lfsrEncodeIsPolynomialDivision : Obligations.LfsrEncodeIsPolynomialDivision := fun _ _ hg hr =>
  ⟨polyOf_lfsrEncode hg hr, fun _ _ => lfsrEncode_zipWith_xor hg hr, lfsrEncode_replicate_false hg hr,
    lfsrEncode_append_replicate_false hg hr, dvd_polyOf_systematic hg hr⟩
end

section
/-! What the commands that read and write cells share: the fault of a shared cell, and the bits the claims read. -/

namespace Sys2Proof.Machine

open Sys2Proof.Claims

/-- A check of two listed ranges is a check of each. -/
theorem forall_mem_pair {p : Range → Prop} {v w : Range} : (∀ r ∈ [v, w], p r) ↔ p v ∧ p w := by
  rw [List.forall_mem_cons, List.forall_mem_singleton]

theorem exec_of_not_noOverlap {i : Instr} {s : State} (hl : lengthLegal i s) (hr : rangesInside i s)
    (ho : ¬ noOverlap i s) : exec i s = .next { s with err := 4 } := by
  rw [exec_of_rejects fun ⟨_, _, h, _⟩ => ho h, if_neg (not_not_intro hl), if_neg (not_not_intro hr), if_pos ho]
  rfl

/-- The bits MemRead gives for binary cells are those the claims read (R13, R58). -/
theorem memRead_eq_bitsAt {s : State} {a n : Nat} (hb : binary s a n) : s.memRead a n = bitsAt s a n :=
  List.map_congr_left fun i hi => bitOfCell_eq_decide (hb i (List.mem_range.mp hi))

end Sys2Proof.Machine
end

section
/-! Command LFSR (R111): its rows of the tables of R83 and R182, and what it does when no check fails. -/

namespace Sys2Proof.Machine

open Sys2Proof.Claims

section
variable (s : State)

theorem lengthLegal_lfsr_iff :
    lengthLegal .lfsr s ↔ s.a1.toNat < s.a0.toNat ∧ s.a0.toNat - s.a1.toNat ≤ s.params.rMax := by
  simp [lengthLegal]

theorem rangesInside_lfsr_iff :
    rangesInside .lfsr s ↔ inside s s.src.toNat s.a1.toNat ∧ inside s s.gp.toNat (s.a0.toNat - s.a1.toNat) ∧
      inside s s.dst.toNat (s.a0.toNat - s.a1.toNat) :=
  List.forall_mem_cons.trans (and_congr_right' forall_mem_pair)

theorem noOverlap_lfsr_iff :
    noOverlap .lfsr s ↔ apart s.dst.toNat (s.a0.toNat - s.a1.toNat) s.src.toNat s.a1.toNat ∧
      apart s.dst.toNat (s.a0.toNat - s.a1.toNat) s.gp.toNat (s.a0.toNat - s.a1.toNat) :=
  List.forall_mem_singleton.trans forall_mem_pair

theorem cellsBinary_lfsr_iff :
    cellsBinary .lfsr s ↔ binary s s.src.toNat s.a1.toNat ∧ binary s s.gp.toNat (s.a0.toNat - s.a1.toNat) :=
  forall_mem_pair

end

/-- An accepted request stores the redundancy of its data bits (R111). -/
theorem exec_lfsr_storesExactly {s : State} (h : accepts .lfsr s) :
    ∃ t, exec .lfsr s = .next t ∧ storesExactly s t s.dst.toNat (s.a0.toNat - s.a1.toNat) fun j =>
      (lfsrEncode (bitsAt s s.src.toNat s.a1.toNat) (s.a0.toNat - s.a1.toNat)
        (bitsAt s s.gp.toNat (s.a0.toNat - s.a1.toNat))).getD j false := by
  have ⟨hl, _, _, hc⟩ := h
  obtain ⟨hk, _⟩ := (lengthLegal_lfsr_iff s).mp hl
  obtain ⟨hdata, hgen⟩ := (cellsBinary_lfsr_iff s).mp hc
  refine ⟨_, exec_of_accepts h, ?_⟩
  rw [← memRead_eq_bitsAt hdata, ← memRead_eq_bitsAt hgen]
  exact storesExactly_memWrite s _ (length_lfsrEncode _ (State.length_memRead ..) (Nat.sub_pos_of_lt hk))
    fun _ _ => rfl

end Sys2Proof.Machine

open Sys2Proof.Machine

/-- Settles O11: each fault by the first check that fails, and the cells by `exec_lfsr_storesExactly`. -/
theorem lfsrWritesRedundancy : Obligations.LfsrWritesRedundancy := by
  rintro s _ _ _ rfl rfl rfl
  have legal hk hr := (lengthLegal_lfsr_iff s).mpr ⟨hk, hr⟩
  have fits hs hg hd := (rangesInside_lfsr_iff s).mpr ⟨hs, hg, hd⟩
  have clear hs hg := (noOverlap_lfsr_iff s).mpr ⟨hs, hg⟩
  refine ⟨fun hn => exec_of_not_lengthLegal ?len,
    fun hk hr h => exec_of_not_rangesInside (legal hk hr) ?bounds,
    fun hk hr hs hg hd h => exec_of_not_noOverlap (legal hk hr) (fits hs hg hd) ?overlap,
    fun hk hr hs hg hd hos hog h =>
      exec_of_not_cellsBinary (legal hk hr) (fits hs hg hd) (clear hos hog) ?cells,
    fun hk hr hs hg hd hos hog hbs hbg => exec_lfsr_storesExactly
      ⟨legal hk hr, fits hs hg hd, clear hos hog, (cellsBinary_lfsr_iff s).mpr ⟨hbs, hbg⟩⟩⟩
  case len =>
    rw [lengthLegal_lfsr_iff]
    omega
  case bounds => rwa [rangesInside_lfsr_iff]
  case overlap => rwa [noOverlap_lfsr_iff]
  case cells => rwa [cellsBinary_lfsr_iff]
end

section
/-! The Access Code bit by bit (R129, R131): the steps of R125 put together, from the LAP operand to the air bits. -/

namespace Sys2Proof.Machine

open Sys2Proof.Claims

/-! ### The bytes before the first pseudo-noise pass -/

/-- The LAP of an operand is its value modulo 2^24 (R125 step 0). -/
theorem lapOf_eq_iff (v w : Word) : lapOf v = lapOf w ↔ v.toNat % 2 ^ 24 = w.toNat % 2 ^ 24 := by
  simp [← BitVec.toNat_inj, lapOf]

/-- L[0] is bit 23 of the LAP operand (R127). -/
theorem getLsbD_zero_acReverse_lapOf (v : Word) : (acReverse (lapOf v)).getLsbD 0 = v.getLsbD 23 := by
  rw [getLsbD_acReverse _ (by decide), getLsbD_lapOf v (by decide)]

/-- The nine bytes after step 3 of R125. -/
def acUnscrambled (p : Params) (v : Word) : List Byte := acScatter p (acReverse (lapOf v))

@[simp] theorem length_acUnscrambled (p : Params) (v : Word) : (acUnscrambled p v).length = 9 :=
  length_acScatter p _

/-- Air bits 38 to 61 after step 3 are the LAP, least significant bit first (R126). -/
theorem getD_unpack_acUnscrambled_lap {p : Params} (hb : p.brk1.extractLsb' 2 6 = 0) (v : Word) {i : Nat} (h : i < 24) :
    (unpack (acUnscrambled p v)).getD (38 + i) false = v.getLsbD i := by
  rw [acUnscrambled, getD_unpack_acScatter p hb _ h, getLsbD_acReverse _ (by omega), getLsbD_lapOf v (by omega),
    show 23 - (23 - i) = i by omega]

/-! ### The two pseudo-noise passes and the redundancy between them -/

/-- The nine bytes after step 4 of R125. -/
def acScrambled (p : Params) (v : Word) : List Byte := acFirstPass p (acUnscrambled p v)

/-- The nine bytes after step 8 of R125, the preamble still to come. -/
def acUnframed (p : Params) (v : Word) : List Byte := acSecondPass p (acReassemble p (acScrambled p v))

section
variable (p : Params) (v : Word)

@[simp] theorem length_acScrambled : (acScrambled p v).length = 9 :=
  length_acFirstPass p (length_acUnscrambled p v)

@[simp] theorem length_acUnframed : (acUnframed p v).length = 9 :=
  length_acSecondPass p (length_acReassemble p (length_acScrambled p v))

/-- The thirty bits that step 5 takes out (R125, R128). -/
theorem acData_acScrambled :
    acData (acScrambled p v) = (List.range 30).map fun i =>
      ((unpack (acUnscrambled p v)).getD (38 + i) false ^^ (unpack p.pn.toList).getD (38 + i) false) := by
  refine List.ext_getElem (by simp [acData]) fun i hi _ => ?_
  have hi : i < 30 := by simpa [acData] using hi
  rw [List.getElem_map, List.getElem_range, ← getD_unpack_acFirstPass p (length_acUnscrambled p v) (by omega),
    ← acScrambled]
  simp [acData, show 38 + i < 72 by omega]

theorem getD_unpack_acUnframed_of_lt {t : Nat} (h : t < 4) :
    (unpack (acUnframed p v)).getD t false = (unpack p.pn.toList).getD t false := by
  rw [acUnframed, getD_unpack_acSecondPass p (length_acReassemble p (length_acScrambled p v)),
    getD_unpack_acReassemble p (length_acScrambled p v) (by omega), if_pos h, Bool.false_xor]

theorem getD_unpack_acUnframed_redundancy {j : Nat} (h : j < 34) :
    (unpack (acUnframed p v)).getD (4 + j) false =
      ((lfsrEncode (acData (acScrambled p v)) 34 (p.gAc.toList.take 34)).getD j false ^^
        (unpack p.pn.toList).getD (4 + j) false) := by
  rw [acUnframed, getD_unpack_acSecondPass p (length_acReassemble p (length_acScrambled p v)),
    getD_unpack_acReassemble p (length_acScrambled p v) (by omega), if_neg (by omega), if_pos (by omega),
    Nat.add_sub_cancel_left]

/-- From air bit 38 on, the two pseudo-noise passes cancel (R131). -/
theorem getD_unpack_acUnframed_of_ge {t : Nat} (h : 38 ≤ t) (ht : t < 72) :
    (unpack (acUnframed p v)).getD t false = (unpack (acUnscrambled p v)).getD t false := by
  rw [acUnframed, getD_unpack_acSecondPass p (length_acReassemble p (length_acScrambled p v)),
    getD_unpack_acReassemble p (length_acScrambled p v) ht, if_neg (by omega), if_neg (by omega), acScrambled,
    getD_unpack_acFirstPass p (length_acUnscrambled p v) (by omega), Bool.xor_assoc, Bool.xor_self, Bool.xor_false]

end

/-! ### The preamble -/

/-- Step 9 of R125 writes into the first byte alone. -/
theorem getD_unpack_acPreamble_of_ge (p : Params) (bs : List Byte) {t : Nat} (h : 8 ≤ t) :
    (unpack (acPreamble p bs)).getD t false = (unpack bs).getD t false := by
  obtain ⟨n, hn⟩ : ∃ n, t / 8 = n + 1 := Nat.exists_eq_succ_of_ne_zero (by omega)
  cases bs with
  | nil => rfl
  | cons b bs => rw [getD_unpack, getD_unpack, hn, acPreamble, List.getD_cons_succ, List.getD_cons_succ]

/-- The first sync-word bit, air bit 4, chooses the preamble (R125 step 9). -/
theorem getD_unpack_acPreamble_of_lt (p : Params) {bs : List Byte} (hbs : bs ≠ []) {t : Nat} (h : t < 8) :
    (unpack (acPreamble p bs)).getD t false =
      ((unpack bs).getD t false ||
        (if (unpack bs).getD 4 false then p.pre1 else p.pre0).getLsbD (7 - t)) := by
  cases bs with
  | nil => exact absurd rfl hbs
  | cons b bs =>
    simp only [getD_unpack, Nat.div_eq_of_lt h, Nat.mod_eq_of_lt h, acPreamble]
    exact BitVec.getLsbD_or

/-- Air bit t of AcGen, as bit t of the nine bytes after step 9 (R52, R125). -/
theorem airBit_acGen (p : Params) (v : Word) {t : Nat} (h : t < 72) :
    airBit (acGen p v) t = (unpack (acPreamble p (acUnframed p v))).getD t false :=
  airBit_packedOfBytes (length_acBytes p (lapOf v)) h

theorem airBit_acGen_of_ge (p : Params) (v : Word) {t : Nat} (h : 38 ≤ t) (ht : t < 72) :
    airBit (acGen p v) t = (unpack (acUnscrambled p v)).getD t false := by
  rw [airBit_acGen p v ht, getD_unpack_acPreamble_of_ge p _ (by omega), getD_unpack_acUnframed_of_ge p v h ht]

/-- Air bits 38 to 61 are the LAP (R131). -/
theorem airBit_acGen_lap {p : Params} (hb : p.brk1.extractLsb' 2 6 = 0) (v : Word) {i : Nat} (h : i < 24) :
    airBit (acGen p v) (38 + i) = v.getLsbD i := by
  rw [airBit_acGen_of_ge p v (by omega) (by omega), getD_unpack_acUnscrambled_lap hb v h]

/-- A legal PN is zero under the preamble (R122). -/
theorem getD_unpack_pn_of_lt {p : Params} (hp : p.Legal) {t : Nat} (h : t < 4) :
    (unpack p.pn.toList).getD t false = false := by
  obtain ⟨-, -, -, hpn⟩ := hp
  have hbit := congrArg (fun x => x.getLsbD (3 - t)) hpn
  rw [getD_unpack, Nat.div_eq_of_lt (by omega), Nat.mod_eq_of_lt (by omega)]
  simpa [List.getD_eq_getElem?_getD, show 3 - t < 4 by omega, show 4 + (3 - t) = 7 - t by omega] using hbit

section
variable {p : Params} (hpre0 : p.pre0 = Tables.defaults.pre0) (hpre1 : p.pre1 = Tables.defaults.pre1)
include hpre0 hpre1

/-- The preambles of R124 as bits: none of the sync word, and four that alternate. -/
theorem getLsbD_preamble (b : Bool) {t : Nat} (h : t < 8) :
    (if b then p.pre1 else p.pre0).getLsbD (7 - t) =
      (decide (t < 4) && if b then decide (t % 2 = 0) else decide (t % 2 = 1)) := by
  rw [hpre0, hpre1]
  cases b <;> interval_cases t <;> rfl

/-- The sync word and the trailer are not touched by the preamble. -/
theorem airBit_acGen_of_four_le (v : Word) {t : Nat} (h : 4 ≤ t) (ht : t < 72) :
    airBit (acGen p v) t = (unpack (acUnframed p v)).getD t false := by
  rw [airBit_acGen p v ht]
  by_cases h8 : t < 8
  · rw [getD_unpack_acPreamble_of_lt p (List.ne_nil_of_length_pos (by simp)) h8, getLsbD_preamble hpre0 hpre1 _ h8,
      decide_eq_false (not_lt.mpr h), Bool.false_and, Bool.or_false]
  · exact getD_unpack_acPreamble_of_ge p _ (not_lt.mp h8)

/-- The preamble alternates into the sync word (R131). -/
theorem airBit_acGen_preamble (hp : p.Legal) (v : Word) {t : Nat} (h : t < 4) :
    airBit (acGen p v) t =
      if airBit (acGen p v) 4 then decide (t % 2 = 0) else decide (t % 2 = 1) := by
  rw [airBit_acGen_of_four_le hpre0 hpre1 v le_rfl (by decide), airBit_acGen p v (by omega),
    getD_unpack_acPreamble_of_lt p (List.ne_nil_of_length_pos (by simp)) (by omega),
    getLsbD_preamble hpre0 hpre1 _ (by omega), getD_unpack_acUnframed_of_lt p v h, getD_unpack_pn_of_lt hp h,
    decide_eq_true h, Bool.true_and, Bool.false_or]

end

/-! ### The end of the sync word and the trailer, for the constants of R123 -/

/-- The six bits that end the sync word and the four of the trailer, with the constants of R123, as bit 23 of the LAP
selects them (R127). -/
def acTail (b : Bool) : List Bool := [b, b, !b, !b, b, !b, b, !b, b, !b]

/-- The trailer alternates, bit 23 of the LAP first (R127). -/
theorem getD_acTail_trailer (b : Bool) {i : Nat} (h : i < 4) :
    (acTail b).getD (6 + i) false = if b then decide (i % 2 = 0) else decide (i % 2 = 1) := by
  interval_cases i <;> cases b <;> rfl

theorem lapData_eq (v : Word) : lapData v = (List.range 24).map v.getLsbD ++ (acTail (v.getLsbD 23)).take 6 := by
  rw [lapData]
  cases v.getLsbD 23 <;> rfl

theorem getD_lapData_of_lt (v : Word) {i : Nat} (h : i < 24) : (lapData v).getD i false = v.getLsbD i := by
  rw [lapData_eq, List.getD_append _ _ _ _ (by simpa using h)]
  simp [List.getD_eq_getElem?_getD, h]

theorem getD_lapData_add (v : Word) {i : Nat} (h : i < 6) :
    (lapData v).getD (24 + i) false = (acTail (v.getLsbD 23)).getD i false := by
  rw [lapData_eq, List.getD_append_right _ _ _ _ (by simp)]
  simp [List.getD_eq_getElem?_getD, h]

/-- The BRK1 of R123 sets no bit of the LAP. -/
theorem extractLsb'_brk1_eq_zero {p : Params} (h : p.brk1 = Tables.defaults.brk1) : p.brk1.extractLsb' 2 6 = 0 :=
  h ▸ by decide

section
variable {p : Params} (htrl0 : p.trl0 = Tables.defaults.trl0) (htrl1 : p.trl1 = Tables.defaults.trl1)
  (hbrk1 : p.brk1 = Tables.defaults.brk1)
include htrl0 htrl1 hbrk1

/-- Air bits 62 to 71 after step 3 (R125, R127). -/
theorem getD_unpack_acUnscrambled_tail (v : Word) {i : Nat} (h : i < 10) :
    (unpack (acUnscrambled p v)).getD (62 + i) false = (acTail (v.getLsbD 23)).getD i false := by
  rw [getD_unpack, acUnscrambled, acScatter, htrl0, htrl1, hbrk1, getLsbD_zero_acReverse_lapOf]
  cases v.getLsbD 23 <;> interval_cases i <;> simp [acTail, Tables.defaults]

/-- Air bits 38 to 67 after step 3 are the unscrambled data bits of R131. -/
theorem getD_unpack_acUnscrambled_data (v : Word) {i : Nat} (h : i < 30) :
    (unpack (acUnscrambled p v)).getD (38 + i) false = (lapData v).getD i false := by
  by_cases hi : i < 24
  · rw [getD_unpack_acUnscrambled_lap (extractLsb'_brk1_eq_zero hbrk1) v hi, getD_lapData_of_lt v hi]
  · obtain ⟨j, rfl⟩ := Nat.exists_eq_add_of_le (not_lt.mp hi)
    rw [getD_lapData_add v (by omega), ← Nat.add_assoc,
      getD_unpack_acUnscrambled_tail htrl0 htrl1 hbrk1 v (by omega)]

/-- The data bits of the redundancy are those of R131, scrambled (R125 step 5). -/
theorem acData_acScrambled_eq_lapData (v : Word) :
    acData (acScrambled p v) = (List.range 30).map fun i =>
      ((lapData v).getD i false ^^ (unpack p.pn.toList).getD (38 + i) false) := by
  rw [acData_acScrambled]
  exact List.map_congr_left fun i hi => by
    rw [getD_unpack_acUnscrambled_data htrl0 htrl1 hbrk1 v (List.mem_range.mp hi)]

/-- Air bits 62 to 71 (R131). -/
theorem airBit_acGen_tail (v : Word) {i : Nat} (h : i < 10) :
    airBit (acGen p v) (62 + i) = (acTail (v.getLsbD 23)).getD i false := by
  rw [airBit_acGen_of_ge p v (by omega) (by omega), getD_unpack_acUnscrambled_tail htrl0 htrl1 hbrk1 v h]

end

end Sys2Proof.Machine

open Sys2Proof.Machine

/-- Settles O21: each group of air bits by its lemma above; the two joins follow from the groups they lie between. -/
theorem accessCodeLayout : Obligations.AccessCodeLayout := by
  rintro p lap _ _ _ hp htrl0 htrl1 hbrk1 hpre0 hpre1 rfl rfl rfl
  have preamble := fun t => airBit_acGen_preamble hpre0 hpre1 hp lap (t := t)
  have tail := fun i => airBit_acGen_tail htrl0 htrl1 hbrk1 lap (i := i)
  refine ⟨preamble, fun j hj => ?redundancy, fun i => airBit_acGen_lap (extractLsb'_brk1_eq_zero hbrk1) lap,
    fun i hi => (tail i (by omega)).trans (getD_lapData_add lap hi).symm, fun i hi => ?trailer, ?first, ?last⟩
  case redundancy =>
    rw [airBit_acGen_of_four_le hpre0 hpre1 lap (by omega) (by omega), getD_unpack_acUnframed_redundancy p lap hj,
      acData_acScrambled_eq_lapData htrl0 htrl1 hbrk1]
  case trailer =>
    rw [show 68 + i = 62 + (6 + i) by omega, tail _ (by omega), getD_acTail_trailer _ hi]
  case first =>
    rw [preamble 3 (by decide)]
    cases airBit (acGen p lap) 4 <;> rfl
  case last =>
    rw [tail 6 (by decide), tail 5 (by decide)]
    cases lap.getLsbD 23 <;> rfl

/-- Settles O22: AcGen sees its operand through `lapOf` alone, and air bits 38 to 61 give the LAP back. -/
theorem accessCodeDeterminedByLap : Obligations.AccessCodeDeterminedByLap := by
  refine fun p v w => ⟨fun h => ?same, fun hb h => ?determined⟩
  case same => rw [acGen, acGen, (lapOf_eq_iff v w).mpr h]
  case determined =>
    refine (lapOf_eq_iff v w).mp (BitVec.eq_of_getLsbD_eq fun i hi => ?_)
    rw [getLsbD_lapOf v hi, getLsbD_lapOf w hi, ← airBit_acGen_lap hb v hi, h, airBit_acGen_lap hb w hi]
end

section
/-! ACGEN and ACVFY (R130, R132 to R134): their rows of the tables of R83 and R182, and what they do if no check fails. -/

namespace Sys2Proof.Machine

open Sys2Proof.Claims

/-- ACGEN has no range and no length: every request passes (R130). -/
theorem accepts_acgen (s : State) : accepts .acgen s := by
  simp [accepts, lengthLegal, rangesInside, noOverlap, cellsBinary, readRanges, writeRanges]

theorem exec_acgen (s : State) : exec .acgen s = .next { s with ac := acGen s.params s.a0 } :=
  exec_of_accepts (accepts_acgen s)

theorem ac_of_exec_acgen {s t : State} (h : exec .acgen s = .next t) : t.ac = acGen s.params s.a0 := by
  rw [exec_acgen, Host.Outcome.next.injEq] at h
  rw [← h]

/-- ACVFY has no length operand, so ERR_LEN cannot occur (R132). -/
theorem lengthLegal_acvfy (s : State) : lengthLegal .acvfy s := rfl

theorem rangesInside_acvfy_iff (s : State) : rangesInside .acvfy s ↔ inside s s.src.toNat 72 :=
  List.forall_mem_singleton

/-- ACVFY writes no cell, so ERR_OVL cannot occur (R132). -/
theorem noOverlap_acvfy (s : State) : noOverlap .acvfy s := List.forall_mem_nil _

theorem cellsBinary_acvfy_iff (s : State) : cellsBinary .acvfy s ↔ binary s s.src.toNat 72 :=
  List.forall_mem_singleton

theorem bitsAt_eq_map_iff (s : State) (a n : Nat) (f : Nat → Bool) :
    bitsAt s a n = (List.range n).map f ↔ ∀ t < n, bitAt s (a + t) = f t := by
  simp only [bitsAt, List.map_inj_left, List.mem_range]

/-- The bit a claim reads from a cell that stores a bit. -/
theorem bitAt_of_cell_eq {s : State} {a : Nat} {b : Bool} (h : s.cell a = cellOfBit b) : bitAt s a = b := by
  rw [bitAt, h]
  cases b <;> rfl

section
variable {s : State} (hr : inside s s.src.toNat 72) (hb : binary s s.src.toNat 72)
include hr hb

theorem exec_acvfy_of_binary :
    exec .acvfy s = .next (s.setRes (if bitsAt s s.src.toNat 72 = (List.range 72).map (airBit (acGen s.params s.a0))
      then 1 else 0)) := by
  rw [← memRead_eq_bitsAt hb]
  exact exec_of_accepts ⟨lengthLegal_acvfy s, (rangesInside_acvfy_iff s).mpr hr, noOverlap_acvfy s,
    (cellsBinary_acvfy_iff s).mpr hb⟩

theorem exec_acvfy_of_match (h : ∀ t < 72, bitAt s (s.src.toNat + t) = airBit (acGen s.params s.a0) t) :
    exec .acvfy s = .next { s with res := 1 } := by
  rw [exec_acvfy_of_binary hr hb, if_pos ((bitsAt_eq_map_iff ..).mpr h), State.setRes_eq]

theorem exec_acvfy_of_mismatch (h : ∃ t < 72, bitAt s (s.src.toNat + t) ≠ airBit (acGen s.params s.a0) t) :
    exec .acvfy s = .next { s with res := 0 } := by
  obtain ⟨t, ht, hne⟩ := h
  rw [exec_acvfy_of_binary hr hb, if_neg fun heq => hne ((bitsAt_eq_map_iff ..).mp heq t ht), State.setRes_eq]

end

end Sys2Proof.Machine

open Sys2Proof.Machine

/-- Settles O12: ACGEN has no fault of its own. -/
theorem acgenWritesAccessCode : Obligations.AcgenWritesAccessCode := exec_acgen

/-- Settles O13: each fault by the first check that fails, and RES by comparing the 72 bits. -/
theorem acvfyComparesExactly : Obligations.AcvfyComparesExactly := by
  intro s
  refine ⟨fun hr => exec_of_not_rangesInside (lengthLegal_acvfy s) ?outside,
    fun hr hb => exec_of_not_cellsBinary (lengthLegal_acvfy s) ?inside (noOverlap_acvfy s) ?cells,
    exec_acvfy_of_match, exec_acvfy_of_mismatch⟩
  case outside => exact fun h => hr ((rangesInside_acvfy_iff s).mp h)
  case inside => exact (rangesInside_acvfy_iff s).mpr hr
  case cells => exact fun h => hb ((cellsBinary_acvfy_iff s).mp h)

/-- Settles O31: the cells that hold the code are binary and match it. -/
theorem acvfyAcceptsGeneratedCode : Obligations.AcvfyAcceptsGeneratedCode := by
  intro s t u hgen hp ha hr hcells
  refine exec_acvfy_of_match hr (fun k hk => ?binary) fun k hk => ?equal
  case binary => exact (hcells k hk).trans_le (cellOfBit_le_one _)
  case equal => rw [bitAt_of_cell_eq (hcells k hk), ac_of_exec_acgen hgen, hp, ha]

/-- Settles O32: the cell that differs is the mismatch. -/
theorem acvfyHasNoTolerance : Obligations.AcvfyHasNoTolerance := by
  intro s t u k hgen hp ha hr hb hk hcell
  have hflip : u.cell (u.src.toNat + k) = cellOfBit (!airBit t.ac k) := by
    rw [hcell]
    cases airBit t.ac k <;> rfl
  refine exec_acvfy_of_mismatch hr hb ⟨k, hk, ?_⟩
  rw [bitAt_of_cell_eq hflip, hp, ha, ← ac_of_exec_acgen hgen]
  exact Bool.not_ne_self _
end

section
/-! The whitening function (R140): its elements in closed form, its own inverse (R144), and in two pieces (R146). -/

namespace Sys2Proof.Machine

theorem clockKey_eq_mod (v : Word) : clockKey v = v.toNat % 64 := BitVec.extractLsb'_toNat 0 6 v

/-- Element j of Whiten, with the index of R140 in exact arithmetic (R91). -/
theorem getD_whiten (p : Params) {bits : List Bool} (clock skip : Word) {j : Nat} (hj : j < bits.length) :
    (whiten p bits clock skip).getD j false =
      (bits.getD j false ^^
        p.whitenSeq.toList.getD
          (((p.whitenIdx.toList.getD (clock.toNat % 64) 0).val + skip.toNat + j) % 127) false) := by
  rw [whiten, getD_whitenFrom p (whitenStart_lt p clock skip) hj, whitenStart, Nat.mod_add_mod, clockKey_eq_mod]

/-- The same table entries are added twice, so they cancel (R144). -/
theorem whitenFrom_whitenFrom (p : Params) (idx : Nat) (bits : List Bool) :
    whitenFrom p idx (whitenFrom p idx bits) = bits := by
  induction bits generalizing idx with
  | nil => rfl
  | cons b bs ih => rw [whitenFrom, whitenFrom, ih, Bool.xor_assoc, Bool.xor_self, Bool.xor_false]

theorem whiten_whiten (p : Params) (bits : List Bool) (clock skip : Word) :
    whiten p (whiten p bits clock skip) clock skip = bits :=
  whitenFrom_whitenFrom p _ bits

/-- The second piece starts at the index the first one has reached (R140). -/
theorem whitenFrom_append (p : Params) {idx : Nat} (hidx : idx < 127) (bs cs : List Bool) :
    whitenFrom p idx (bs ++ cs) = whitenFrom p idx bs ++ whitenFrom p ((idx + bs.length) % 127) cs := by
  induction bs generalizing idx with
  | nil => rw [List.length_nil, Nat.add_zero, Nat.mod_eq_of_lt hidx, whitenFrom, List.nil_append, List.nil_append]
  | cons b bs ih =>
    have hnext : ((idx + 1) % 127 + bs.length) % 127 = (idx + (b :: bs).length) % 127 := by
      rw [Nat.mod_add_mod, List.length_cons, Nat.add_assoc, Nat.add_comm 1]
    rw [List.cons_append, whitenFrom, whitenFrom, ih (Nat.mod_lt _ (by decide)), hnext, List.cons_append]

/-- A skip larger by n moves the start index n further; the skip counts modulo 127 only (R140). -/
theorem whitenStart_of_skip (p : Params) (clock : Word) {skip skip' : Word} {n : Nat}
    (h : skip'.toNat % 127 = (skip.toNat + n) % 127) :
    whitenStart p clock skip' = (whitenStart p clock skip + n) % 127 := by
  rw [whitenStart, whitenStart, Nat.mod_add_mod, Nat.add_assoc]
  exact Nat.ModEq.add_left _ h

end Sys2Proof.Machine

open Sys2Proof.Machine

/-- Settles O27: the pieces by `whitenFrom_append`, the second one's start index by `whitenStart_of_skip`. -/
theorem whiteningSplits : Obligations.WhiteningSplits := by
  intro p bs cs clock skip skip' h
  rw [whiten, whiten, whiten, whitenStart_of_skip p clock h, whitenFrom_append p (whitenStart_lt p clock skip)]
end

section
/-! Command WHT (R143): its rows of the tables of R83 and R182, and what it does when no check fails. -/

namespace Sys2Proof.Machine

open Sys2Proof.Claims

section
variable (s : State)

/-- WHT allows every LEN, so ERR_LEN cannot occur (R143). -/
theorem lengthLegal_wht : lengthLegal .wht s := rfl

theorem rangesInside_wht_iff :
    rangesInside .wht s ↔ inside s s.src.toNat s.len.toNat ∧ inside s s.dst.toNat s.len.toNat :=
  forall_mem_pair

theorem noOverlap_wht_iff :
    noOverlap .wht s ↔ apart s.dst.toNat s.len.toNat s.src.toNat s.len.toNat :=
  List.forall_mem_singleton.trans List.forall_mem_singleton

theorem cellsBinary_wht_iff : cellsBinary .wht s ↔ binary s s.src.toNat s.len.toNat :=
  List.forall_mem_singleton

end

section
variable {s : State} (hs : inside s s.src.toNat s.len.toNat) (hd : inside s s.dst.toNat s.len.toNat)
  (ho : apart s.dst.toNat s.len.toNat s.src.toNat s.len.toNat) (hb : binary s s.src.toNat s.len.toNat)
include hs hd ho hb

theorem exec_wht_of_binary :
    exec .wht s =
      .next (s.memWrite s.dst.toNat (whiten s.params (s.memRead s.src.toNat s.len.toNat) s.a0 s.a1)) :=
  exec_of_accepts ⟨lengthLegal_wht s, (rangesInside_wht_iff s).mpr ⟨hs, hd⟩, (noOverlap_wht_iff s).mpr ho,
    (cellsBinary_wht_iff s).mpr hb⟩

/-- On cells that hold whitened bits, the same clock and skip store the bits from before the whitening (R144). -/
theorem exec_wht_of_whitened {bits : List Bool}
    (h : s.memRead s.src.toNat s.len.toNat = whiten s.params bits s.a0 s.a1) :
    exec .wht s = .next (s.memWrite s.dst.toNat bits) := by
  rw [exec_wht_of_binary hs hd ho hb, h, whiten_whiten]

/-- A request that passes every check stores the closed form of R140. -/
theorem exec_wht_storesExactly :
    ∃ t, exec .wht s = .next t ∧ storesExactly s t s.dst.toNat s.len.toNat fun j =>
      (bitAt s (s.src.toNat + j) ^^
        s.params.whitenSeq.toList.getD
          (((s.params.whitenIdx.toList.getD (s.a0.toNat % 64) 0).val + s.a1.toNat + j) % 127) false) := by
  refine ⟨_, exec_wht_of_binary hs hd ho hb, storesExactly_memWrite s _ (by simp) fun j hj => ?_⟩
  rw [getD_whiten _ _ _ (by simpa using hj), State.getD_memRead s hj, bitOfCell_eq_decide (hb j hj)]

end

/-- The cells copied are the cells read, where they are binary (R58). -/
theorem cell_memWrite_memRead {s : State} {a n : Nat} (hb : binary s a n) (t : State) (b : Nat) {j : Nat}
    (hj : j < n) : (t.memWrite b (s.memRead a n)).cell (b + j) = s.cell (a + j) := by
  rw [t.cell_memWrite_add b (by simpa using hj), State.getD_memRead s hj, cellOfBit_bitOfCell (hb j hj)]

end Sys2Proof.Machine

open Sys2Proof.Machine

/-- Settles O14: each fault by the first check that fails, and the cells by `exec_wht_storesExactly`. -/
theorem whtWhitens : Obligations.WhtWhitens := by
  intro s
  have legal := lengthLegal_wht s
  have fits hs hd := (rangesInside_wht_iff s).mpr ⟨hs, hd⟩
  refine ⟨fun h => exec_of_not_rangesInside legal ?bounds,
    fun hs hd h => exec_of_not_noOverlap legal (fits hs hd) ?overlap,
    fun hs hd ho h => exec_of_not_cellsBinary legal (fits hs hd) ((noOverlap_wht_iff s).mpr ho) ?cells,
    exec_wht_storesExactly⟩
  case bounds => rwa [rangesInside_wht_iff]
  case overlap => rwa [noOverlap_wht_iff]
  case cells => rwa [cellsBinary_wht_iff]

/-- Settles O26: the second WHT reads the bits the first one stored, and whitening them again gives the bits of P. -/
theorem whitenTwiceRestores : Obligations.WhitenTwiceRestores := by
  intro s r hs hd hr ho ho' hb
  have hlen : (whiten s.params (s.memRead s.src.toNat s.len.toNat) s.a0 s.a1).length = s.len.toNat := by simp
  exact ⟨_, exec_wht_of_binary hs hd ho hb, _,
    exec_wht_of_whitened hd hr ho' (binary_memWrite s s.dst.toNat hlen) (s.memRead_memWrite s.dst.toNat hlen),
    fun j hj => cell_memWrite_memRead hb _ r.toNat hj⟩
end

section
/-! Command UF13 (R150, R152): its rows of the tables of R83 and R182, the vote of a group as a sum of its cells, and
what the command does when no check fails. -/

namespace Sys2Proof.Machine

open Sys2Proof.Claims

/-- Maj counts its bits: at least two of the three are set (R17). -/
theorem maj_eq_decide_two_le (a b c : Bool) : maj a b c = decide (2 ≤ a.toNat + b.toNat + c.toNat) := by
  revert a b c
  decide

/-- Three binary cells that all hold `b` but for at most one of them vote for `b` (R152). -/
theorem decide_two_le_of_one_error {c : Nat → Byte} {b : Bool} (hc : ∀ j < 3, c j ≤ 1)
    (h : ∃ e < 3, ∀ j < 3, j ≠ e → c j = cellOfBit b) :
    decide (2 ≤ (c 0).toNat + (c 1).toNat + (c 2).toNat) = b := by
  obtain ⟨e, he, h⟩ := h
  have agree : ∀ j < 3, j ≠ e → (c j).toNat = b.toNat := fun j hj hne => by rw [h j hj hne, toNat_cellOfBit]
  have err : (c e).toNat ≤ 1 := hc e he
  have sum : (c 0).toNat + (c 1).toNat + (c 2).toNat = 2 * b.toNat + (c e).toNat := by
    interval_cases e
    · rw [agree 1, agree 2] <;> omega
    · rw [agree 0, agree 2] <;> omega
    · rw [agree 0, agree 1] <;> omega
  rw [sum]
  cases b
  · exact decide_eq_false (by rw [Bool.toNat_false]; omega)
  · exact decide_eq_true (Nat.le_add_right 2 _)

section
variable (s : State)

theorem lengthLegal_uf13_iff : lengthLegal .uf13 s ↔ s.len.toNat % 3 = 0 := decide_eq_true_iff

theorem rangesInside_uf13_iff :
    rangesInside .uf13 s ↔ inside s s.src.toNat s.len.toNat ∧ inside s s.dst.toNat (s.len.toNat / 3) :=
  forall_mem_pair

theorem noOverlap_uf13_iff :
    noOverlap .uf13 s ↔ apart s.dst.toNat (s.len.toNat / 3) s.src.toNat s.len.toNat :=
  List.forall_mem_singleton.trans List.forall_mem_singleton

theorem cellsBinary_uf13_iff : cellsBinary .uf13 s ↔ binary s s.src.toNat s.len.toNat :=
  List.forall_mem_singleton

/-- The vote over group `i` of binary cells is the count of its cells that are 1 (R150). -/
theorem getD_fec13Decode_memRead {a n m i : Nat} (hb : binary s a n) (hn : 3 * m ≤ n) (hi : i < m) :
    (fec13Decode m (s.memRead a n)).getD i false =
      decide (2 ≤ (s.cell (a + 3 * i)).toNat + (s.cell (a + (3 * i + 1))).toNat +
        (s.cell (a + (3 * i + 2))).toNat) := by
  have bit : ∀ j < n, ((s.memRead a n).getD j false).toNat = (s.cell (a + j)).toNat := fun j hj => by
    rw [State.getD_memRead s hj, toNat_bitOfCell (hb j hj)]
  rw [getD_fec13Decode _ hi, maj_eq_decide_two_le, bit _ (by omega), bit _ (by omega), bit _ (by omega)]

end

/-- A request that passes every check stores the votes of its groups (R150). -/
theorem exec_uf13_storesExactly {s : State} (hl : s.len.toNat % 3 = 0) (hs : inside s s.src.toNat s.len.toNat)
    (hd : inside s s.dst.toNat (s.len.toNat / 3)) (ho : apart s.dst.toNat (s.len.toNat / 3) s.src.toNat s.len.toNat)
    (hb : binary s s.src.toNat s.len.toNat) :
    ∃ t, exec .uf13 s = .next t ∧ storesExactly s t s.dst.toNat (s.len.toNat / 3) fun i =>
      decide (2 ≤ (s.cell (s.src.toNat + 3 * i)).toNat + (s.cell (s.src.toNat + (3 * i + 1))).toNat +
        (s.cell (s.src.toNat + (3 * i + 2))).toNat) :=
  ⟨_, exec_of_accepts ⟨(lengthLegal_uf13_iff s).mpr hl, (rangesInside_uf13_iff s).mpr ⟨hs, hd⟩,
      (noOverlap_uf13_iff s).mpr ho, (cellsBinary_uf13_iff s).mpr hb⟩,
    storesExactly_memWrite s _ (length_fec13Decode _ _) fun _ hi =>
      getD_fec13Decode_memRead s hb (Nat.mul_div_le _ _) hi⟩

end Sys2Proof.Machine

open Sys2Proof.Machine

/-- Settles O15: each fault by the first check that fails, and the cells by `exec_uf13_storesExactly`. -/
theorem uf13TakesMajority : Obligations.Uf13TakesMajority := by
  rintro s _ rfl
  have legal hl := (lengthLegal_uf13_iff s).mpr hl
  have fits hs hd := (rangesInside_uf13_iff s).mpr ⟨hs, hd⟩
  refine ⟨fun h => exec_of_not_lengthLegal ?len, fun hl h => exec_of_not_rangesInside (legal hl) ?bounds,
    fun hl hs hd h => exec_of_not_noOverlap (legal hl) (fits hs hd) ?overlap,
    fun hl hs hd ho h =>
      exec_of_not_cellsBinary (legal hl) (fits hs hd) ((noOverlap_uf13_iff s).mpr ho) ?cells,
    exec_uf13_storesExactly⟩
  case len => rwa [lengthLegal_uf13_iff]
  case bounds => rwa [rangesInside_uf13_iff]
  case overlap => rwa [noOverlap_uf13_iff]
  case cells => rwa [cellsBinary_uf13_iff]

/-- Settles O29: UF13 stores the vote of each group, and one wrong cell in three does not change the vote. -/
theorem uf13CorrectsOneErrorPerGroup : Obligations.Uf13CorrectsOneErrorPerGroup := by
  intro s m b hlen hs hd ho hb hrep
  have hm : m = s.len.toNat / 3 := by omega
  rw [← hlen] at hs ho hb
  subst hm
  obtain ⟨t, ht, _, hcells, _⟩ := exec_uf13_storesExactly (by omega) hs hd ho hb
  refine ⟨t, ht, fun i hi => ?_⟩
  have vote := decide_two_le_of_one_error (c := fun j => s.cell (s.src.toNat + (3 * i + j)))
    (fun j hj => hb (3 * i + j) (by omega)) (hrep i hi)
  exact (hcells i hi).trans (congrArg cellOfBit vote)
end

section
/-! Command UF23 (R155): its rows of the tables of R83 and R182, and what it does when no check fails. -/

namespace Sys2Proof.Machine

open Sys2Proof.Claims

section
variable (s : State)

theorem lengthLegal_uf23_iff : lengthLegal .uf23 s ↔ s.len.toNat % 15 = 0 := decide_eq_true_iff

theorem rangesInside_uf23_iff :
    rangesInside .uf23 s ↔ inside s s.src.toNat s.len.toNat ∧ inside s s.dst.toNat (10 * (s.len.toNat / 15)) :=
  forall_mem_pair

theorem noOverlap_uf23_iff :
    noOverlap .uf23 s ↔ apart s.dst.toNat (10 * (s.len.toNat / 15)) s.src.toNat s.len.toNat :=
  List.forall_mem_singleton.trans List.forall_mem_singleton

theorem cellsBinary_uf23_iff : cellsBinary .uf23 s ↔ binary s s.src.toNat s.len.toNat :=
  List.forall_mem_singleton

/-- Output bit `q` is data bit `q % 10` of block `q / 10` (R155). -/
theorem getD_fec23Decode_memRead {a n nb q : Nat} (hb : binary s a n) (hn : 15 * nb ≤ n) (hq : q < 10 * nb) :
    (fec23Decode nb (s.memRead a n)).getD q false = bitAt s (a + (15 * (q / 10) + q % 10)) := by
  have block : q / 10 < nb := Nat.div_lt_of_lt_mul hq
  have offset : q % 10 < 10 := Nat.mod_lt q (by decide)
  have read : 15 * (q / 10) + q % 10 < n := by omega
  conv_lhs => rw [← Nat.div_add_mod q 10]
  rw [getD_fec23Decode _ block offset, State.getD_memRead s read, bitOfCell_eq_decide (hb _ read)]

end

/-- A request that passes every check stores the data bits of its blocks (R155). -/
theorem exec_uf23_storesExactly {s : State} (hl : s.len.toNat % 15 = 0) (hs : inside s s.src.toNat s.len.toNat)
    (hd : inside s s.dst.toNat (10 * (s.len.toNat / 15)))
    (ho : apart s.dst.toNat (10 * (s.len.toNat / 15)) s.src.toNat s.len.toNat)
    (hb : binary s s.src.toNat s.len.toNat) :
    ∃ t, exec .uf23 s = .next t ∧ storesExactly s t s.dst.toNat (10 * (s.len.toNat / 15)) fun q =>
      bitAt s (s.src.toNat + (15 * (q / 10) + q % 10)) :=
  ⟨_, exec_of_accepts ⟨(lengthLegal_uf23_iff s).mpr hl, (rangesInside_uf23_iff s).mpr ⟨hs, hd⟩,
      (noOverlap_uf23_iff s).mpr ho, (cellsBinary_uf23_iff s).mpr hb⟩,
    storesExactly_memWrite s _ (length_fec23Decode _ _) fun _ hq =>
      getD_fec23Decode_memRead s hb (Nat.mul_div_le _ _) hq⟩

end Sys2Proof.Machine

open Sys2Proof.Machine

/-- Settles O16: each fault by the first check that fails, and the cells by `exec_uf23_storesExactly`. -/
theorem uf23CopiesDataBits : Obligations.Uf23CopiesDataBits := by
  rintro s _ rfl
  have legal hl := (lengthLegal_uf23_iff s).mpr hl
  have fits hs hd := (rangesInside_uf23_iff s).mpr ⟨hs, hd⟩
  refine ⟨fun h => exec_of_not_lengthLegal ?len, fun hl h => exec_of_not_rangesInside (legal hl) ?bounds,
    fun hl hs hd h => exec_of_not_noOverlap (legal hl) (fits hs hd) ?overlap,
    fun hl hs hd ho h =>
      exec_of_not_cellsBinary (legal hl) (fits hs hd) ((noOverlap_uf23_iff s).mpr ho) ?cells,
    exec_uf23_storesExactly⟩
  case len => rwa [lengthLegal_uf23_iff]
  case bounds => rwa [rangesInside_uf23_iff]
  case overlap => rwa [noOverlap_uf23_iff]
  case cells => rwa [cellsBinary_uf23_iff]
end

section
/-! Command F23G (R156): its rows of the tables of R83 and R182, and what it does when no check fails; and F23G followed
by UF23 (R160). -/

namespace Sys2Proof.Machine

open Sys2Proof.Claims

section
variable (s : State)

/-- F23G has no length operand, so ERR_LEN cannot occur (R156). -/
theorem lengthLegal_f23g : lengthLegal .f23g s := rfl

theorem rangesInside_f23g_iff :
    rangesInside .f23g s ↔ inside s s.src.toNat 10 ∧ inside s s.dst.toNat 5 :=
  forall_mem_pair

theorem noOverlap_f23g_iff : noOverlap .f23g s ↔ apart s.dst.toNat 5 s.src.toNat 10 :=
  List.forall_mem_singleton.trans List.forall_mem_singleton

theorem cellsBinary_f23g_iff : cellsBinary .f23g s ↔ binary s s.src.toNat 10 :=
  List.forall_mem_singleton

end

/-- The register of the model takes the step of R156. -/
theorem fec23Register_eq_foldl_fecRuleStep (taps : BitVec 5) (d : List Bool) :
    fec23Register taps d = d.foldl (fecRuleStep taps) 0 := rfl

/-- The bits F23G stores: the register from bit 0 on (R156). -/
def fec23CheckBits (s : State) : List Bool :=
  (List.range 5).map (fec23Register s.params.fec23Taps (s.memRead s.src.toNat 10)).getLsbD

@[simp] theorem length_fec23CheckBits (s : State) : (fec23CheckBits s).length = 5 := by simp [fec23CheckBits]

theorem getD_fec23CheckBits {s : State} (hb : binary s s.src.toNat 10) {m : Nat} (hm : m < 5) :
    (fec23CheckBits s).getD m false =
      ((bitsAt s s.src.toNat 10).foldl (fecRuleStep s.params.fec23Taps) 0).getLsbD m := by
  rw [fec23CheckBits, memRead_eq_bitsAt hb, fec23Register_eq_foldl_fecRuleStep]
  simp [List.getD_eq_getElem?_getD, hm]

section
variable {s : State} (hs : inside s s.src.toNat 10) (hd : inside s s.dst.toNat 5)
  (ho : apart s.dst.toNat 5 s.src.toNat 10) (hb : binary s s.src.toNat 10)
include hs hd ho hb

theorem exec_f23g_of_binary : exec .f23g s = .next (s.memWrite s.dst.toNat (fec23CheckBits s)) :=
  exec_of_accepts ⟨lengthLegal_f23g s, (rangesInside_f23g_iff s).mpr ⟨hs, hd⟩, (noOverlap_f23g_iff s).mpr ho,
    (cellsBinary_f23g_iff s).mpr hb⟩

/-- A request that passes every check stores the register of R156. -/
theorem exec_f23g_storesExactly :
    ∃ t, exec .f23g s = .next t ∧ storesExactly s t s.dst.toNat 5 fun m =>
      ((bitsAt s s.src.toNat 10).foldl (fecRuleStep s.params.fec23Taps) 0).getLsbD m :=
  ⟨_, exec_f23g_of_binary hs hd ho hb,
    storesExactly_memWrite s _ (length_fec23CheckBits s) fun _ hm => getD_fec23CheckBits hb hm⟩

end

/-- Two binary ranges, one straight behind the other, are one binary range (R58). -/
theorem binary_add {s : State} {a m n : Nat} (hm : binary s a m) (hn : binary s (a + m) n) :
    binary s a (m + n) := by
  intro j hj
  rcases Nat.lt_or_ge j m with h | h
  · exact hm j h
  · have hcell := hn (j - m) (by omega)
    rwa [show a + m + (j - m) = a + j by omega] at hcell

/-- The cell that stores the bit the claims read from a binary cell is that cell (R58). -/
theorem cellOfBit_bitAt {s : State} {a : Nat} (h : s.cell a ≤ 1) : cellOfBit (bitAt s a) = s.cell a := by
  rw [bitAt, ← bitOfCell_eq_decide h, cellOfBit_bitOfCell h]

/-- UF23 on one block of binary cells copies its ten data cells (R155). -/
theorem exec_uf23_one_block {s : State} (hl : s.len = 15) (hs : inside s s.src.toNat 15)
    (hd : inside s s.dst.toNat 10) (ho : apart s.dst.toNat 10 s.src.toNat 15) (hb : binary s s.src.toNat 15) :
    ∃ t, exec .uf23 s = .next t ∧ ∀ j < 10, t.cell (s.dst.toNat + j) = s.cell (s.src.toNat + j) := by
  have hlen : s.len.toNat = 15 := congrArg BitVec.toNat hl
  have copies := exec_uf23_storesExactly (s := s)
  rw [hlen] at copies
  obtain ⟨t, ht, _, hcells, _⟩ := copies rfl hs hd ho hb
  refine ⟨t, ht, fun j hj => ?_⟩
  have index : 15 * (j / 10) + j % 10 = j := by omega
  have hcell : t.cell (s.dst.toNat + j) =
      cellOfBit (bitAt s (s.src.toNat + (15 * (j / 10) + j % 10))) := hcells j hj
  rw [hcell, index, cellOfBit_bitAt (hb j (by omega))]

end Sys2Proof.Machine

open Sys2Proof.Machine

/-- Settles O17: each fault by the first check that fails, and the cells by `exec_f23g_storesExactly`. -/
theorem f23gWritesCheckBits : Obligations.F23gWritesCheckBits := by
  intro s
  have legal := lengthLegal_f23g s
  have fits hs hd := (rangesInside_f23g_iff s).mpr ⟨hs, hd⟩
  refine ⟨fun h => exec_of_not_rangesInside legal ?bounds,
    fun hs hd h => exec_of_not_noOverlap legal (fits hs hd) ?overlap,
    fun hs hd ho h => exec_of_not_cellsBinary legal (fits hs hd) ((noOverlap_f23g_iff s).mpr ho) ?cells,
    exec_f23g_storesExactly⟩
  case bounds => rwa [rangesInside_f23g_iff]
  case overlap => rwa [noOverlap_f23g_iff]
  case cells => rwa [cellsBinary_f23g_iff]

/-- Settles O30: F23G leaves the data cells as they are and makes a binary block of 15, whose data cells UF23 copies. -/
theorem f23gThenUf23RoundTrip : Obligations.F23gThenUf23RoundTrip := by
  intro s q hdst hs hb hq ho
  have data : ∀ j < 10, (s.memWrite s.dst.toNat (fec23CheckBits s)).cell (s.src.toNat + j) =
      s.cell (s.src.toNat + j) := fun j hj => s.cell_memWrite_of_outside (.inl (by omega))
  have block : Sys2Proof.Claims.binary (s.memWrite s.dst.toNat (fec23CheckBits s)) s.src.toNat (10 + 5) :=
    binary_add (fun j hj => (data j hj).trans_le (hb j hj))
      (hdst ▸ binary_memWrite s s.dst.toNat (length_fec23CheckBits s))
  obtain ⟨v, hv, hcells⟩ := exec_uf23_one_block
    (s := { s.memWrite s.dst.toNat (fec23CheckBits s) with len := 15, dst := q }) rfl hs hq ho block
  exact ⟨_, exec_f23g_of_binary (by omega) (by omega) (by omega) hb, v, hv,
    fun j hj => (hcells j hj).trans (data j hj)⟩
end

section
/-! The FEC 2/3 register (R156, R159): linear, and so the exclusive-or of the registers of its single data bits. -/

namespace Sys2Proof.Machine

section
variable (taps : BitVec 5)

/-- One step is the shift, with the taps added for the bit that leaves the register and for the data bit. -/
theorem fec23Step_eq_xor (reg : BitVec 5) (d : Bool) :
    fec23Step taps reg d =
      reg >>> 1 ^^^ ((if reg.getLsbD 0 then taps else 0) ^^^ (if d then taps else 0)) := by
  rw [fec23Step]
  cases d <;> cases reg.getLsbD 0 <;> simp

theorem ite_xor_taps (b c : Bool) :
    (if b ^^ c then taps else 0) = (if b then taps else 0) ^^^ (if c then taps else 0) := by
  cases b <;> cases c <;> simp

theorem fec23Step_xor (reg reg' : BitVec 5) (d d' : Bool) :
    fec23Step taps (reg ^^^ reg') (d ^^ d') = fec23Step taps reg d ^^^ fec23Step taps reg' d' := by
  simp only [fec23Step_eq_xor, BitVec.getLsbD_xor, ite_xor_taps, BitVec.ushiftRight_xor_distrib]
  ac_rfl

theorem foldl_fec23Step_zipWith_xor {d e : List Bool} (h : d.length = e.length) (reg reg' : BitVec 5) :
    (List.zipWith xor d e).foldl (fec23Step taps) (reg ^^^ reg') =
      d.foldl (fec23Step taps) reg ^^^ e.foldl (fec23Step taps) reg' := by
  induction d generalizing e reg reg' with
  | nil => rw [List.length_eq_zero_iff.mp h.symm]; rfl
  | cons b d ih =>
    cases e with
    | nil => simp at h
    | cons c e =>
      rw [List.zipWith_cons_cons, List.foldl_cons, fec23Step_xor, ih (Nat.succ.inj h), List.foldl_cons,
        List.foldl_cons]

/-- The encoder is linear (R159). -/
theorem fec23Register_zipWith_xor {d e : List Bool} (h : d.length = e.length) :
    fec23Register taps (List.zipWith xor d e) = fec23Register taps d ^^^ fec23Register taps e :=
  foldl_fec23Step_zipWith_xor taps h 0 0

/-- A zero data bit leaves the zero register at zero. -/
@[simp] theorem fec23Register_false_cons (d : List Bool) :
    fec23Register taps (false :: d) = fec23Register taps d := by
  simp [fec23Register, fec23Step_eq_xor]

@[simp] theorem fec23Register_replicate_false (n : Nat) : fec23Register taps (List.replicate n false) = 0 := by
  induction n with
  | zero => rfl
  | succ n ih => rw [List.replicate_succ, fec23Register_false_cons, ih]

/-- The register of the data word with its first bit set and `n` zero bits behind it. -/
def fec23Row (n : Nat) : BitVec 5 := fec23Register taps (true :: List.replicate n false)

/-- The first data bit adds the row of its place to the register of the bits behind it. -/
theorem fec23Register_cons (b : Bool) (d : List Bool) :
    fec23Register taps (b :: d) = (if b then fec23Row taps d.length else 0) ^^^ fec23Register taps d := by
  have sum : b :: d = List.zipWith xor (b :: List.replicate d.length false) (false :: d) := by
    rw [List.zipWith_cons_cons, Bool.xor_false]
    congr 1
    exact List.ext_getElem (by simp) (by simp)
  rw [sum, fec23Register_zipWith_xor taps (by simp), fec23Register_false_cons]
  cases b <;> simp [fec23Row]

/-- The register is the exclusive-or of the rows of the data bits that are set (R159). -/
theorem xor_fec23Register_eq_foldl (acc : BitVec 5) (d : List Bool) :
    acc ^^^ fec23Register taps d = (List.range d.length).foldl
      (fun acc i => acc ^^^ if d.getD i false then fec23Row taps (d.length - 1 - i) else 0) acc := by
  induction d generalizing acc with
  | nil => exact BitVec.xor_zero
  | cons b d ih =>
    rw [fec23Register_cons, ← BitVec.xor_assoc, ih, List.length_cons, List.range_succ_eq_map, List.foldl_cons,
      List.foldl_map]
    simp [Nat.sub_sub, Nat.add_comm 1]

end

/-- With the taps of log 5 the rows are those of the table of R159. -/
theorem fec23Row_defaults :
    ∀ i < 10, fec23Row Tables.defaults.fec23Taps (9 - i) = Claims.parityRows.getD i 0 := by
  decide

end Sys2Proof.Machine

open Sys2Proof.Machine

/-- Settles O23: the steps of the register are linear, and each data bit adds its row of the table. -/
theorem fecParityIsLinear : Obligations.FecParityIsLinear := by
  refine ⟨fun taps d e hd he => fec23Register_zipWith_xor taps (hd.trans he.symm), fun d hd => ?_⟩
  rw [← BitVec.zero_xor (x := fec23Register _ d), xor_fec23Register_eq_foldl, hd]
  refine List.foldl_ext _ _ _ fun acc i hi => ?_
  rw [← fec23Row_defaults i (List.mem_range.mp hi)]
end

section
/-! One step of the CRC register (R165): as the rule writes it, in the closed form of R167, and bit by bit; it is
linear, and it can be undone when either the register before it or the input bit is known. -/

namespace Sys2Proof.Machine

open Sys2Proof.Claims

/-- A tap adds a power of x when bit 0 is set (R165). -/
theorem xor_lowBit16_shiftLeft (x : BitVec 16) (n : Nat) :
    x ^^^ (lowBit16 x <<< n) = if x.getLsbD 0 then x ^^^ (1#16 <<< n) else x := by
  rw [lowBit16]
  cases x.getLsbD 0 <;> simp

section
variable (reg reg' : BitVec 16) (b b' : Bool)

theorem crcStep_eq_crcRuleStep : crcStep reg b = crcRuleStep reg b := by
  have hbit (c : Bool) : (BitVec.ofBool c).setWidth 16 = if c then 1 else 0 := by cases c <;> rfl
  simp only [crcStep, xor_lowBit16_shiftLeft, hbit]
  rfl

/-- The shift leaves bit 0 free, so setting it is adding it (R165). -/
theorem shiftLeft_one_or_one : reg <<< 1 ||| 1#16 = reg <<< 1 ^^^ 1#16 := by
  refine BitVec.eq_of_getLsbD_eq fun i _ => ?_
  cases i <;> simp

theorem crcRuleStep_eq_crcClosedStep : crcRuleStep reg b = crcClosedStep reg b := by
  rw [crcRuleStep, crcClosedStep]
  cases reg.getLsbD 15 ^^ b
  case false => simp
  case true => simp [shiftLeft_one_or_one, BitVec.xor_assoc]

/-- The closed form of a step (R167). -/
theorem crcStep_eq_crcClosedStep : crcStep reg b = crcClosedStep reg b :=
  (crcStep_eq_crcRuleStep reg b).trans (crcRuleStep_eq_crcClosedStep reg b)

theorem getLsbD_crcStep (i : Nat) :
    (crcStep reg b).getLsbD i =
      ((reg <<< 1).getLsbD i ^^ ((reg.getLsbD 15 ^^ b) && (0x1021#16).getLsbD i)) := by
  rw [crcStep_eq_crcClosedStep, crcClosedStep, BitVec.getLsbD_xor]
  cases reg.getLsbD 15 ^^ b <;> simp

theorem getLsbD_crcStep_zero : (crcStep reg b).getLsbD 0 = (reg.getLsbD 15 ^^ b) := by
  rw [getLsbD_crcStep]
  simp

theorem getLsbD_crcStep_succ {i : Nat} (hi : i + 1 < 16) :
    (crcStep reg b).getLsbD (i + 1) =
      (reg.getLsbD i ^^ ((reg.getLsbD 15 ^^ b) && (0x1021#16).getLsbD (i + 1))) := by
  rw [getLsbD_crcStep, BitVec.getLsbD_shiftLeft]
  simp [hi]

/-- A step is linear in the register and the input bit together (R167). -/
theorem crcStep_xor : crcStep (reg ^^^ reg') (b ^^ b') = crcStep reg b ^^^ crcStep reg' b' := by
  refine BitVec.eq_of_getLsbD_eq fun i _ => ?_
  simp only [getLsbD_crcStep, BitVec.getLsbD_xor, BitVec.shiftLeft_xor_distrib, Bool.and_xor_distrib_right,
    Bool.xor_assoc, Bool.xor_left_comm]

end

/-- Bit 0 after a step tells the input bit from the register before it. -/
theorem crcStep_bit_injective (reg : BitVec 16) : Function.Injective (crcStep reg) := by
  intro b b' h
  have h0 := congrArg (·.getLsbD 0) h
  simpa only [getLsbD_crcStep_zero, Bool.xor_right_inj] using h0

/-- Bit 0 after a step gives back the bit that left the register, and then the other bits say what was shifted. -/
theorem crcStep_register_injective (b : Bool) : Function.Injective (crcStep · b) := by
  intro reg reg' h
  have top : reg.getLsbD 15 = reg'.getLsbD 15 := by
    have h0 := congrArg (·.getLsbD 0) h
    simpa only [getLsbD_crcStep_zero, Bool.xor_left_inj] using h0
  refine BitVec.eq_of_getLsbD_eq fun i hi => ?_
  rcases Nat.lt_succ_iff_lt_or_eq.mp hi with hlt | rfl
  · have hi := congrArg (·.getLsbD (i + 1)) h
    simpa only [getLsbD_crcStep_succ _ _ (Nat.succ_lt_succ hlt), top, Bool.xor_left_inj] using hi
  · exact top

end Sys2Proof.Machine
end

section
/-! Crc16 over a bit sequence (R165): linear, and sensitive to one inverted bit (R167, R169). -/

namespace Sys2Proof.Machine

open Sys2Proof.Claims

theorem foldl_crcStep_eq_foldl_crcRuleStep (bs : List Bool) (reg : BitVec 16) :
    bs.foldl crcStep reg = bs.foldl crcRuleStep reg :=
  List.foldl_ext _ _ _ fun reg b _ => crcStep_eq_crcRuleStep reg b

/-- A register whose step is linear is linear over whole sequences. -/
theorem foldl_zipWith_xor {w : Nat} {step : BitVec w → Bool → BitVec w}
    (hstep : ∀ reg reg' b b', step (reg ^^^ reg') (b ^^ b') = step reg b ^^^ step reg' b')
    {bs cs : List Bool} (h : bs.length = cs.length) (reg reg' : BitVec w) :
    (List.zipWith xor bs cs).foldl step (reg ^^^ reg') = bs.foldl step reg ^^^ cs.foldl step reg' := by
  induction bs generalizing cs reg reg' with
  | nil => rw [List.length_eq_zero_iff.mp h.symm]; rfl
  | cons b bs ih =>
    cases cs with
    | nil => simp at h
    | cons c cs => simp only [List.zipWith_cons_cons, List.foldl_cons, hstep, ih (Nat.succ.inj h)]

/-- With seed 0 the CRC is linear (R167). -/
theorem crc16_zipWith_xor {bs cs : List Bool} (h : bs.length = cs.length) :
    crc16 (List.zipWith xor bs cs) 0 = crc16 bs 0 ^^^ crc16 cs 0 :=
  foldl_zipWith_xor crcStep_xor h 0 0

/-- The seed adds the CRC of as many zeros (R167). -/
theorem crc16_eq_xor_crc16_replicate_false (bs : List Bool) (u : Byte) :
    crc16 bs u = crc16 bs 0 ^^^ crc16 (List.replicate bs.length false) u := by
  have hbs : List.zipWith xor bs (List.replicate bs.length false) = bs :=
    List.ext_getElem (by simp) (by simp)
  have hsum := foldl_zipWith_xor crcStep_xor (List.length_replicate (n := bs.length) (a := false)).symm
    0#16 (u.setWidth 16)
  rwa [hbs, BitVec.zero_xor] at hsum

theorem setWidth_injective_of_le {v w : Nat} (h : v ≤ w) :
    Function.Injective (BitVec.setWidth w : BitVec v → BitVec w) := fun x y heq =>
  BitVec.eq_of_toNat_eq (by simpa only [BitVec.toNat_setWidth_of_le h] using congrArg BitVec.toNat heq)

/-- The same input bits keep two registers apart (R169). -/
theorem foldl_crcStep_injective (bs : List Bool) : Function.Injective (bs.foldl crcStep) := by
  induction bs with
  | nil => exact Function.injective_id
  | cons b bs ih => exact ih.comp (crcStep_register_injective b)

/-- Two seeds give two CRCs (R169). -/
theorem crc16_seed_injective (bs : List Bool) : Function.Injective (crc16 bs) := fun _ _ h =>
  setWidth_injective_of_le (by decide) (foldl_crcStep_injective bs h)

/-- Bits that differ in one place give two CRCs (R169). -/
theorem crc16_ne_of_bit_ne (pre post : List Bool) {b c : Bool} (h : b ≠ c) (u : Byte) :
    crc16 (pre ++ b :: post) u ≠ crc16 (pre ++ c :: post) u := by
  simp only [crc16, List.foldl_append, List.foldl_cons]
  exact fun heq => h (crcStep_bit_injective _ (foldl_crcStep_injective post heq))

end Sys2Proof.Machine
end

section
/-! Crc16 as division (R167): with seed 0 it is LfsrEncode, first bit on the air last, for the generator of 0x1021. -/

namespace Sys2Proof.Machine

open Polynomial Sys2Proof.Claims

/-- The bits of a register, bit 0 first: index p is the coefficient of x^p (R167). -/
def registerBits {w : Nat} (reg : BitVec w) : List Bool := (List.range w).map reg.getLsbD

section
variable {w : Nat} (reg : BitVec w)

@[simp] theorem length_registerBits : (registerBits reg).length = w := by simp [registerBits]

@[simp] theorem getD_registerBits {i : Nat} (h : i < w) : (registerBits reg).getD i false = reg.getLsbD i := by
  simp [registerBits, List.getD_eq_getElem?_getD, h]

end

/-- A step of the CRC register is a step of LfsrEncode (R110, R165). -/
theorem registerBits_crcStep (reg : BitVec 16) (b : Bool) :
    registerBits (crcStep reg b) = lfsrStep (registerBits 0x1021#16) b (registerBits reg) := by
  have hcw : (registerBits reg).length = (registerBits 0x1021#16).length := by simp
  have hg : 0 < (registerBits 0x1021#16).length := by simp
  refine List.ext_getElem (by rw [length_lfsrStep b hcw hg]; simp) fun i hi hi' => ?_
  have hi : i < 16 := by simpa using hi
  rw [← List.getD_eq_getElem _ false, ← List.getD_eq_getElem _ false hi', getD_registerBits _ hi]
  cases i with
  | zero =>
    rw [getLsbD_crcStep_zero, getD_lfsrStep_zero hcw hg, length_registerBits, getD_registerBits _ (by decide),
      getD_registerBits _ (by decide), Bool.xor_comm]
    simp
  | succ i =>
    rw [getLsbD_crcStep_succ reg b hi, getD_lfsrStep_succ hcw hg b (by simpa using hi), getD_registerBits _ hi,
      getD_registerBits _ (by omega), length_registerBits, getD_registerBits _ (by decide), Bool.xor_comm b]

theorem registerBits_crc16 (bs : List Bool) :
    registerBits (crc16 bs 0) = lfsrEncode bs.reverse 16 (registerBits 0x1021#16) := by
  rw [lfsrEncode, List.foldr_reverse, crc16]
  exact (List.foldl_hom registerBits fun reg b => (registerBits_crcStep reg b).symm).symm

theorem polyOf_registerBits_generator : polyOf (registerBits 0x1021#16) = X ^ 12 + X ^ 5 + 1 := by
  simp [registerBits, List.range_succ, polyOfBit]
  ring

/-- With seed 0 the CRC is the remainder of x^16 M (R167). -/
theorem polyOf_registerBits_crc16 (bs : List Bool) :
    polyOf (registerBits (crc16 bs 0)) = (X ^ 16 * polyOf bs.reverse) %ₘ (X ^ 16 + X ^ 12 + X ^ 5 + 1) := by
  rw [registerBits_crc16, polyOf_lfsrEncode (length_registerBits _) (by decide), polyOf_registerBits_generator,
    ← add_assoc, ← add_assoc]

end Sys2Proof.Machine

open Sys2Proof.Machine

/-- Settles O24: the closed form of a step, the remainder as that of LfsrEncode, and the two facts of linearity. -/
theorem crcIsPolynomialRemainder : Obligations.CrcIsPolynomialRemainder :=
  ⟨crcStep_eq_crcClosedStep, polyOf_registerBits_crc16, fun _ _ => crc16_zipWith_xor,
    crc16_eq_xor_crc16_replicate_false⟩
end

section
/-! Command CRC (R166): its rows of the tables of R83 and R182, and what it does when no check fails. -/

namespace Sys2Proof.Machine

open Sys2Proof.Claims

section
variable (s : State)

/-- CRC allows every LEN, so ERR_LEN cannot occur (R166). -/
theorem lengthLegal_crc : lengthLegal .crc s := rfl

theorem rangesInside_crc_iff : rangesInside .crc s ↔ inside s s.src.toNat s.len.toNat :=
  List.forall_mem_singleton

/-- CRC writes no cell, so ERR_OVL cannot occur (R166). -/
theorem noOverlap_crc : noOverlap .crc s := List.forall_mem_nil _

theorem cellsBinary_crc_iff : cellsBinary .crc s ↔ binary s s.src.toNat s.len.toNat :=
  List.forall_mem_singleton

end

theorem exec_crc_of_binary {s : State} (hr : inside s s.src.toNat s.len.toNat)
    (hb : binary s s.src.toNat s.len.toNat) :
    exec .crc s = .next (s.setRes ((crc16 (s.memRead s.src.toNat s.len.toNat) (uapOf s.a0)).setWidth 32)) :=
  exec_of_accepts ⟨lengthLegal_crc s, (rangesInside_crc_iff s).mpr hr, noOverlap_crc s,
    (cellsBinary_crc_iff s).mpr hb⟩

/-- The seed is A0 modulo 256 (R166). -/
theorem setWidth_uapOf (v : Word) : (uapOf v).setWidth 16 = BitVec.ofNat 16 (v.toNat % 256) := by
  rw [← BitVec.ofNat_toNat, uapOf, BitVec.extractLsb'_toNat]
  rfl

theorem getLsbD_uapOf (v : Word) {i : Nat} (h : i < 8) : (uapOf v).getLsbD i = v.getLsbD i := by
  simp [uapOf, h]

/-- MemRead around its bit k (R13). -/
theorem State.memRead_add_succ (s : State) (a k m : Nat) :
    s.memRead a (k + (m + 1)) = s.memRead a k ++ bitOfCell (s.cell (a + k)) :: s.memRead (a + k + 1) m := by
  simp [State.memRead, List.range_add, List.range_succ_eq_map, Nat.add_assoc, Nat.add_comm 1]

theorem State.memRead_congr {s u : State} {a n : Nat} (h : ∀ j < n, s.cell (a + j) = u.cell (a + j)) :
    s.memRead a n = u.memRead a n :=
  List.map_congr_left fun j hj => by rw [h j (List.mem_range.mp hj)]

/-- Binary cells that differ in one place give two CRCs (R169). -/
theorem crc16_memRead_ne {s u : State} {a n k : Nat} (hs : binary s a n) (hu : binary u a n) (hk : k < n)
    (h : ∀ j < n, (s.cell (a + j) = u.cell (a + j) ↔ j ≠ k)) (seed : Byte) :
    crc16 (s.memRead a n) seed ≠ crc16 (u.memRead a n) seed := by
  have hbit : bitOfCell (s.cell (a + k)) ≠ bitOfCell (u.cell (a + k)) := fun hb =>
    (h k hk).mp (by rw [← cellOfBit_bitOfCell (hs k hk), hb, cellOfBit_bitOfCell (hu k hk)]) rfl
  obtain ⟨m, rfl⟩ : ∃ m, n = k + (m + 1) := ⟨n - k - 1, by omega⟩
  have hpre : s.memRead a k = u.memRead a k :=
    State.memRead_congr fun j hj => (h j (by omega)).mpr (by omega)
  have hpost : s.memRead (a + k + 1) m = u.memRead (a + k + 1) m :=
    State.memRead_congr fun j hj => by
      rw [show a + k + 1 + j = a + (k + 1 + j) by omega]
      exact (h _ (by omega)).mpr (by omega)
  rw [State.memRead_add_succ, State.memRead_add_succ, hpre, hpost]
  exact crc16_ne_of_bit_ne _ _ hbit seed

end Sys2Proof.Machine

open Sys2Proof.Machine Sys2Proof.Claims

/-- Settles O18: each fault by the first check that fails, and RES by the step of R165 over the binary cells. -/
theorem crcWritesRemainder : Obligations.CrcWritesRemainder := by
  intro s
  refine ⟨fun hr => exec_of_not_rangesInside (lengthLegal_crc s) ?outside,
    fun hr hb => exec_of_not_cellsBinary (lengthLegal_crc s) ?inside (noOverlap_crc s) ?cells, fun hr hb => ?result⟩
  case outside => exact fun h => hr ((rangesInside_crc_iff s).mp h)
  case inside => exact (rangesInside_crc_iff s).mpr hr
  case cells => exact fun h => hb ((cellsBinary_crc_iff s).mp h)
  case result =>
    rw [exec_crc_of_binary hr hb, memRead_eq_bitsAt hb, crc16, setWidth_uapOf, foldl_crcStep_eq_foldl_crcRuleStep,
      BitVec.ofNat_toNat, State.setRes_eq]

/-- Settles O33: one inverted cell or one inverted seed bit changes the CRC, and RES holds all of its 16 bits. -/
theorem crcDetectsSingleChange : Obligations.CrcDetectsSingleChange := by
  intro s u hp hsrc hlen hr hbs hbu h
  have hru : inside u u.src.toNat u.len.toNat := by rwa [inside, ← hp, ← hsrc, ← hlen]
  suffices hcrc : crc16 (s.memRead s.src.toNat s.len.toNat) (uapOf s.a0) ≠
      crc16 (u.memRead u.src.toNat u.len.toNat) (uapOf u.a0) from
    ⟨_, _, exec_crc_of_binary hr hbs, exec_crc_of_binary hru hbu,
      (setWidth_injective_of_le (w := 32) (by decide)).ne hcrc⟩
  rw [← hsrc, ← hlen] at hbu ⊢
  rcases h with ⟨k, hk, ha, hcells⟩ | ⟨k, hk, hcells, ha⟩
  · rw [ha]
    exact crc16_memRead_ne hbs hbu hk hcells _
  · have hseed : uapOf s.a0 ≠ uapOf u.a0 := fun hu =>
      (ha k hk).mp (by rw [← getLsbD_uapOf _ hk, hu, getLsbD_uapOf _ hk]) rfl
    rw [State.memRead_congr hcells]
    exact (crc16_seed_injective _).ne hseed
end

section
/-! The halted block (R186): the host's writes of the operand registers do not need a running block. -/

namespace Sys2Proof.Machine

/-- A write of an operand register is read back from that register and leaves STATUS.ERR alone (R34). -/
theorem performMove_writeReg_operand {n : Nat} (h : n ≤ 5) (v : Word) (s : State) :
    ∃ t, performMove (.writeReg n v) s = .next t ∧ hostReadReg n t = v ∧ t.err = s.err := by
  interval_cases n <;> exact ⟨_, rfl, rfl, rfl⟩

end Sys2Proof.Machine

open Sys2Proof.Machine

/-- Settles O6: the command port by `issue_halted`; the host's other moves do not look at STATUS.ERR. -/
theorem haltedBlockIgnoresCommands : Obligations.HaltedBlockIgnoresCommands := by
  intro s h
  refine ⟨fun w => ⟨issue_halted h w, issue_halted h w⟩, fun n v hn => performMove_writeReg_operand hn v s,
    fun n => ⟨rfl, rfl⟩, fun a v ha => ?writeCell, fun a ha => ?readCell⟩
  case writeCell => exact ⟨_, performMove_writeCell_of_lt ha v, s.cell_writeCell_same a v, s.writeCell_err a v⟩
  case readCell => exact ⟨performMove_readCell_of_lt ha, hostReply_readCell_of_lt ha⟩
end

section
/-! The fault of an issued word (R182 to R184): the word of a command runs that command, whose outputs do not reach
STATUS.ERR. -/

namespace Sys2Proof.Machine

/-- The word of a command is decoded as that command (R82). -/
theorem decode_encode (i : Instr) : decode (encode i) = .legal i := by
  cases i <;> rfl

/-- A block that is not halted runs the command whose word is issued (R89). -/
theorem performMove_command_encode {s : State} (h : s.err = 0) (i : Instr) :
    performMove (.command (encode i)) s = exec i s :=
  issue_legal h (decode_encode i)

/-- The outputs of a command do not include STATUS.ERR (R26). -/
@[simp] theorem committed_err (i : Instr) (s : State) : (committed i s).err = s.err := by
  obtain ⟨bits, h⟩ | ⟨v, h⟩ | ⟨v, h⟩ := committed_shape i s
  · rw [h, State.memWrite_err]
  · rw [h, State.setRes_err]
  · rw [h, State.setAc_err]

/-- H2A reads no cell, so it can share none (R101). -/
theorem noOverlap_h2a (s : State) : noOverlap .h2a s := fun _ _ => List.forall_mem_nil _

/-- H2A reads no cell, so ERR_CELL cannot occur (R101). -/
theorem cellsBinary_h2a (s : State) : cellsBinary .h2a s := List.forall_mem_nil _

end Sys2Proof.Machine

open Sys2Proof.Machine

/-- Settles O8: an illegal word by the decoder, a command's word by the first check of its request that fails, and the
faults that cannot occur by the ranges the command does not have. -/
theorem faultCausesAndPriority : Obligations.FaultCausesAndPriority := by
  refine ⟨fun s w h => ⟨performMove_command_of_illegalWord h, ?command⟩, fun s => ⟨accepts_acgen s, noOverlap_h2a s,
    cellsBinary_h2a s, noOverlap_a2h s, noOverlap_acvfy s, noOverlap_crc s⟩⟩
  case command =>
    rintro i rfl
    rw [performMove_command_encode h]
    exact ⟨exec_of_not_lengthLegal, exec_of_not_rangesInside, exec_of_not_noOverlap, exec_of_not_cellsBinary,
      fun ha => ⟨_, exec_of_accepts ha, (committed_err i s).trans h⟩⟩
end

section
/-! The command word in both directions (R80, R82): a word that decodes to a command is that command's word. -/

namespace Sys2Proof

/-- A word whose field ZERO is zero is its field OP (R80). -/
theorem eq_of_opField_eq {v w : Word} (hv : v.toNat / 16 = 0) (hw : w.toNat / 16 = 0) (h : opField v = opField w) :
    v = w := by
  have hop : v.toNat % 16 = w.toNat % 16 := by rw [← opField_toNat, h, opField_toNat]
  exact BitVec.eq_of_toNat_eq (by omega)

/-- Field ZERO of a command's word is zero (R82). -/
theorem encode_toNat_div (i : Instr) : (encode i).toNat / 16 = 0 := by
  cases i <;> rfl

/-- No word but its own is read as a command (R85). -/
theorem eq_encode_of_decode {w : Word} {i : Instr} (h : decode w = .legal i) : w = encode i := by
  by_cases hz : w.toNat / 16 = 0
  · rw [decode_of_lt hz] at h
    exact eq_of_opField_eq hz (encode_toNat_div i) (opField_encode_of_decodeOp h)
  · rw [decode_of_zeroField hz] at h
    cases h

end Sys2Proof

open Sys2Proof Sys2Proof.Machine

/-- Settles O2: every word of the table by `decode_encode`, every word at all by `eq_encode_of_decode`. -/
theorem decodeEncodeAgree : Obligations.DecodeEncodeAgree :=
  ⟨fun i _ => decode_encode i, fun _ _ => eq_encode_of_decode⟩

/-- Settles O1: the ten words are those `encode` writes. -/
theorem sampleWordsDecode : Obligations.SampleWordsDecode :=
  ⟨decode_encode .a2h, decode_encode .h2a, decode_encode .lfsr, decode_encode .acgen, decode_encode .acvfy,
    decode_encode .wht, decode_encode .uf13, decode_encode .uf23, decode_encode .f23g, decode_encode .crc⟩
end

section
/-! All that a step to a next state can do to the state, said once (R18, R59, R183), and which of it a rule about every
step turns on. -/

namespace Sys2Proof.Machine

/-- What a host move that leads to a next state has done to the state. -/
inductive MoveEffect (m : HostMove) (s : State) : State → Prop where
  /-- The operand registers alone may have changed (R34); so it is also when nothing has. -/
  | operands (src dst len a0 a1 gp : Word) :
      MoveEffect m s { s with src := src, dst := dst, len := len, a0 := a0, a1 := a1, gp := gp }
  /-- A block that is not halted has raised a fault (R183). -/
  | raised (c : ErrCode) (running : s.err = 0) : MoveEffect m s (s.raise c)
  /-- A block that is not halted has written the outputs of an accepted request (R59). -/
  | committed (i : Instr) (running : s.err = 0) (accepted : accepts i s) : MoveEffect m s (committed i s)
  /-- The host has written a cell of BM (R62). -/
  | wroteCell (a : Nat) (v : Byte) (cellExists : a < s.params.nCells) : MoveEffect m s (s.writeCell a v)
  /-- The host has reset the block (R210). -/
  | reset (isReset : m = .reset) : MoveEffect m s s.hostReset

theorem MoveEffect.refl (m : HostMove) (s : State) : MoveEffect m s s :=
  .operands s.src s.dst s.len s.a0 s.a1 s.gp

theorem MoveEffect.of_exec {m : HostMove} {s t : State} {i : Instr} (running : s.err = 0) (h : exec i s = .next t) :
    MoveEffect m s t := by
  obtain ⟨-, c, rfl⟩ | ⟨ha, rfl⟩ := exec_cases h
  · exact .raised c running
  · exact .committed i running ha

theorem MoveEffect.of_issue {m : HostMove} {s t : State} {w : Word} (h : issue w s = .next t) : MoveEffect m s t := by
  obtain ⟨-, he⟩ | ⟨running, -, he⟩ | ⟨running, i, -, he⟩ := issue_cases w s <;> rw [he] at h
  · cases h
    exact .refl m s
  · cases h
    exact .raised .op running
  · exact .of_exec running h

theorem MoveEffect.of_hostWriteReg {m : HostMove} {s t : State} {n : Nat} {v : Word}
    (h : hostWriteReg n v s = .next t) : MoveEffect m s t := by
  unfold hostWriteReg at h
  split at h
  case h_7 => exact .of_issue h
  all_goals
    cases h
    exact .operands ..

theorem MoveEffect.of_performMove {m : HostMove} {s t : State} (h : performMove m s = .next t) : MoveEffect m s t := by
  cases m with
  | writeReg n v => exact .of_hostWriteReg h
  | command w => exact .of_issue h
  | readReg n =>
    cases h
    exact .refl _ s
  | reset =>
    cases h
    exact .reset rfl
  | writeCell a v =>
    by_cases ha : a < s.params.nCells
    · rw [performMove_writeCell_of_lt ha] at h
      cases h
      exact .wroteCell a v ha
    · cases h.symm.trans (if_neg ha)
  | readCell a =>
    by_cases ha : a < s.params.nCells
    · rw [performMove_readCell_of_lt ha] at h
      cases h
      exact .refl _ s
    · cases h.symm.trans (if_neg ha)

/-- A step to a next state is idle, or it has performed the host's next move (R20, R27). -/
theorem step_cases {s t : State} (h : step s = .next t) :
    (s.moves = [] ∧ t = s) ∨ ∃ m rest, s.moves = m :: rest ∧ MoveEffect m { s with moves := rest } t := by
  cases hm : s.moves with
  | nil =>
    rw [step_idle hm] at h
    cases h
    exact .inl ⟨rfl, rfl⟩
  | cons m rest =>
    rw [step_move hm] at h
    exact .inr ⟨m, rest, rfl, .of_performMove h⟩

/-! ### The fields the outputs of a command do not reach -/

/-- The outputs of a command are RES, AC and cells (R22, R23, R24). -/
theorem committed_eq_update (i : Instr) (s : State) :
    committed i s = { s with res := (committed i s).res, ac := (committed i s).ac, mem := (committed i s).mem } := by
  obtain ⟨bits, h⟩ | ⟨v, h⟩ | ⟨v, h⟩ := committed_shape i s <;> rw [h] <;> rfl

@[simp] theorem committed_params (i : Instr) (s : State) : (committed i s).params = s.params := by
  rw [committed_eq_update]

@[simp] theorem committed_moves (i : Instr) (s : State) : (committed i s).moves = s.moves := by
  rw [committed_eq_update]

@[simp] theorem committed_resets (i : Instr) (s : State) : (committed i s).resets = s.resets := by
  rw [committed_eq_update]

/-- A command changes STATUS.ERR and its outputs, and no other field (R22, R183). -/
theorem eq_update_of_exec {i : Instr} {s t : State} (h : exec i s = .next t) :
    t = { s with err := t.err, res := t.res, ac := t.ac, mem := t.mem } := by
  obtain ⟨-, c, rfl⟩ | ⟨-, rfl⟩ := exec_cases h
  · rfl
  · rw [committed_err]
    exact committed_eq_update i s

/-- A command without a write range writes no cell (R83). -/
theorem committed_mem_of_writeRanges_nil {i : Instr} {s : State} (h : writeRanges i s = []) :
    (committed i s).mem = s.mem := by
  cases i with
  | a2h | acgen | acvfy | crc => rfl
  | _ => cases h

/-! ### What every step keeps -/

/-- The outputs of an accepted request lie inside BM (R56). -/
theorem wf_committed {i : Instr} {s : State} (ha : accepts i s) (hm : Memory.wf s.params.nCells s.mem) :
    Memory.wf s.params.nCells (committed i s).mem := by
  cases hw : writeRanges i s with
  | nil => rwa [committed_mem_of_writeRanges_nil hw]
  | cons w ws =>
    have hmem : w ∈ writeRanges i s := hw ▸ List.mem_cons_self
    have ⟨_, inside, _, _⟩ := ha
    obtain ⟨bits, hbits, hlen⟩ := committed_storing ha hmem
    rw [hbits]
    exact wf_storeBits hm (hlen ▸ inside w (List.mem_append_right _ hmem))

/-- Every code of the table is at most 5 (R181). -/
theorem errValue_le_five (c : ErrCode) : errValue c ≤ 5 := by
  cases c <;> decide

/-- A machine built with legal parameters is legal after reset (R8, R33). -/
theorem State.inv_resetWith {p : Params} (hp : p.Legal) : (State.resetWith p).Inv :=
  ⟨hp, wf_nil _, show (0 : BitVec 4) ≤ 5 by decide⟩

section
variable {m : HostMove} {s t : State} (h : MoveEffect m s t)
include h

theorem MoveEffect.params_eq : t.params = s.params := by
  cases h with
  | committed i => exact committed_params i s
  | _ => rfl

theorem MoveEffect.moves_eq : t.moves = s.moves := by
  cases h with
  | committed i => exact committed_moves i s
  | _ => rfl

theorem MoveEffect.err_eq_of_halted (halted : s.err ≠ 0) (hm : m ≠ .reset) : t.err = s.err := by
  cases h with
  | operands | wroteCell => rfl
  | raised _ running | committed _ running => exact absurd running halted
  | reset isReset => exact absurd isReset hm

theorem MoveEffect.inv (hs : s.Inv) : t.Inv := by
  have ⟨hp, hm, he⟩ := hs
  cases h with
  | operands => exact hs
  | raised c => exact ⟨hp, hm, errValue_le_five c⟩
  | committed i _ ha =>
    rw [State.Inv, committed_params, committed_err]
    exact ⟨hp, wf_committed ha hm, he⟩
  | wroteCell a v ha => exact ⟨hp, wf_store hm ha v, he⟩
  | reset => exact State.inv_resetWith hp

end

end Sys2Proof.Machine

open Sys2Proof.Machine

/-- Settles O46: the moves still to come are no part of `State.Inv`, and each effect of a move keeps it. -/
theorem legalStateIsKept : Obligations.LegalStateIsKept := by
  intro s t hs h
  obtain ⟨-, rfl⟩ | ⟨m, rest, -, effect⟩ := step_cases h
  · exact hs
  · exact effect.inv hs

/-- Settles O48: no effect of a move reaches the parameters. -/
theorem parametersNeverChange : Obligations.ParametersNeverChange := by
  intro s t h
  obtain ⟨-, rfl⟩ | ⟨m, rest, -, effect⟩ := step_cases h
  · rfl
  · exact effect.params_eq

/-- Settles O7: a halted block raises nothing, and only a reset clears STATUS.ERR. -/
theorem errorCodeIsSticky : Obligations.ErrorCodeIsSticky := by
  intro s t h halted hreset
  obtain ⟨-, rfl⟩ | ⟨m, rest, hmoves, effect⟩ := step_cases h
  · rfl
  · exact effect.err_eq_of_halted halted fun hm => hreset rest (hm ▸ hmoves)
end

section
/-! What a command leaves alone and what it writes (R22 to R24, R59, R67). -/

namespace Sys2Proof.Machine

/-- Commands whose output is not RES (R23). -/
theorem committed_res {i : Instr} (h : ¬(i = .a2h ∨ i = .acvfy ∨ i = .crc)) (s : State) :
    (committed i s).res = s.res := by
  cases i with
  | a2h | acvfy | crc => simp at h
  | _ => rfl

/-- Commands whose output is not AC (R24). -/
theorem committed_ac {i : Instr} (h : i ≠ .acgen) (s : State) : (committed i s).ac = s.ac := by
  cases i with
  | acgen => exact absurd rfl h
  | _ => rfl

/-- Commands that have no write range (R83). -/
theorem writeRanges_eq_nil {i : Instr}
    (h : ¬(i = .h2a ∨ i = .lfsr ∨ i = .wht ∨ i = .uf13 ∨ i = .uf23 ∨ i = .f23g)) (s : State) :
    writeRanges i s = [] := by
  cases i with
  | a2h | acgen | acvfy | crc => rfl
  | _ => simp at h

/-- An accepted request writes no cell outside its write range (R59). -/
theorem cell_committed_of_outside {i : Instr} {s : State} {a : Nat} (ha : accepts i s)
    (ho : ∀ w ∈ writeRanges i s, ¬ w.has a) : (committed i s).cell a = s.cell a := by
  cases hw : writeRanges i s with
  | nil => rw [State.cell, committed_mem_of_writeRanges_nil hw, committed_resets, State.cell]
  | cons w ws =>
    have hmem : w ∈ writeRanges i s := hw ▸ List.mem_cons_self
    obtain ⟨bits, hbits, hlen⟩ := committed_storing ha hmem
    have outside : ¬ w.has a := ho w hmem
    rw [hbits, State.cell_memWrite_of_outside]
    omega

/-- An accepted request writes 0 or 1 to every cell of its write range (R67). -/
theorem cell_committed_le_one {i : Instr} {s : State} {w : Range} {a : Nat} (ha : accepts i s)
    (hw : w ∈ writeRanges i s) (h : w.has a) : (committed i s).cell a ≤ 1 := by
  obtain ⟨bits, hbits, hlen⟩ := committed_storing ha hw
  rw [hbits, State.cell_memWrite, if_pos (hlen ▸ h)]
  exact cellOfBit_le_one _

end Sys2Proof.Machine

open Sys2Proof.Machine

/-- Settles O34: a command's effect is an update of STATUS.ERR, RES, AC and BM. -/
theorem commandsKeepOperandRegisters : Obligations.CommandsKeepOperandRegisters := by
  intro i s t h
  rw [eq_update_of_exec h]
  exact ⟨rfl, rfl, rfl, rfl, rfl, rfl, rfl, rfl, rfl⟩

/-- Settles O35: a refused request only raises its fault, an accepted one writes the outputs of its command. -/
theorem outputsHaveTheirWriters : Obligations.OutputsHaveTheirWriters := by
  intro i s t h
  obtain ⟨-, c, rfl⟩ | ⟨ha, rfl⟩ := exec_cases h
  · exact ⟨fun _ => rfl, fun _ => rfl, fun _ => rfl⟩
  · exact ⟨fun hw => committed_res (fun hi => hw ⟨ha, hi⟩) s, fun hw => committed_ac (fun hi => hw ⟨ha, hi⟩) s,
      fun hw => committed_mem_of_writeRanges_nil (writeRanges_eq_nil (fun hi => hw ⟨ha, hi⟩) s)⟩

/-- Settles O36: a refused request writes no cell, an accepted one writes bits to its write range alone. -/
theorem coreWritesOnlyBits : Obligations.CoreWritesOnlyBits := by
  intro i s t h
  obtain ⟨hr, c, rfl⟩ | ⟨ha, rfl⟩ := exec_cases h
  · exact ⟨fun ha => absurd ha hr, fun a _ => rfl⟩
  · exact ⟨fun _ w hw a => cell_committed_le_one ha hw, fun a ho => cell_committed_of_outside ha (ho ha)⟩
end

section
/-! The result of a command as a function of its operands (R32): two states that agree on the registers R83 lists for a
command and on the cells it reads. -/

namespace Sys2Proof.Machine

section
variable {s s' : State} {lenOk : Bool} {reads writes : List Range}

/-- The checks of R182 look at the parameters and the cells of the read ranges, and at nothing else of the state. -/
theorem firstFault_congr (hp : s.params = s'.params)
    (hcells : ∀ r ∈ reads, ∀ j < r.count, s.cell (r.start + j) = s'.cell (r.start + j)) :
    firstFault s lenOk reads writes = firstFault s' lenOk reads writes := by
  have binary : (∀ r ∈ reads, ∀ j < r.count, s.cell (r.start + j) ≤ 1) ↔
      ∀ r ∈ reads, ∀ j < r.count, s'.cell (r.start + j) ≤ 1 :=
    forall₄_congr fun r hr j hj => by rw [hcells r hr j hj]
  simp only [firstFault_eq, hp, binary]

end

section
variable {i : Instr} {s s' : State} (hp : s.params = s'.params) (ho : operandRegs i s = operandRegs i s')
include ho

theorem readRanges_congr : readRanges i s = readRanges i s' := by
  cases i
  all_goals
    simp only [operandRegs, List.cons.injEq] at ho
    simp only [readRanges, ho]

theorem writeRanges_congr : writeRanges i s = writeRanges i s' := by
  cases i
  all_goals
    simp only [operandRegs, List.cons.injEq] at ho
    simp only [writeRanges, ho]

include hp

theorem lengthLegal_congr : lengthLegal i s = lengthLegal i s' := by
  cases i
  all_goals
    simp only [operandRegs, List.cons.injEq] at ho
    simp only [lengthLegal, ho, hp]

variable (hcells : ∀ r ∈ readRanges i s, ∀ j < r.count, s.cell (r.start + j) = s'.cell (r.start + j))
include hcells

/-- The request meets the same row of the table of R182, or none, in both states. -/
theorem requestFault_congr :
    firstFault s (lengthLegal i s) (readRanges i s) (writeRanges i s) =
      firstFault s' (lengthLegal i s') (readRanges i s') (writeRanges i s') := by
  rw [← lengthLegal_congr hp ho, ← readRanges_congr ho, ← writeRanges_congr ho]
  exact firstFault_congr hp hcells

theorem accepts_congr : accepts i s ↔ accepts i s' := by
  rw [← firstFault_eq_none_iff_accepts, ← firstFault_eq_none_iff_accepts, requestFault_congr hp ho hcells]

/-- A refused request raises the same fault in both states. -/
theorem exec_rejected_congr (h : ¬ accepts i s) :
    ∃ c, exec i s = .next (s.raise c) ∧ exec i s' = .next (s'.raise c) := by
  obtain ⟨c, hc⟩ := Option.ne_none_iff_exists'.mp (mt (firstFault_eq_none_iff_accepts i s).mp h)
  refine ⟨c, ?_, ?_⟩
  · rw [exec_eq, checkThenCommit_of_some hc]
  · rw [exec_eq, checkThenCommit_of_some (requestFault_congr hp ho hcells ▸ hc)]

/-- RES after an accepted request, for the commands whose output it is (R23). -/
theorem committed_res_congr (hi : i = .a2h ∨ i = .acvfy ∨ i = .crc) :
    (committed i s).res = (committed i s').res := by
  have read : ∀ r ∈ readRanges i s, s.memRead r.start r.count = s'.memRead r.start r.count :=
    fun r hr => State.memRead_congr (hcells r hr)
  obtain rfl | rfl | rfl := hi
  all_goals
    simp only [operandRegs, List.cons.injEq] at ho
    simp only [readRanges, List.forall_mem_singleton, ho] at read
    simp only [committed, State.setRes_res, ho, hp, read]

/-- The bits an accepted request stores, for the commands that have a write range (R13). -/
theorem committed_storing_congr {w : Range} (hw : w ∈ writeRanges i s) (ha : accepts i s) :
    ∃ bits : List Bool, committed i s = s.memWrite w.start bits ∧ committed i s' = s'.memWrite w.start bits ∧
      bits.length = w.count := by
  have read : ∀ r ∈ readRanges i s, s.memRead r.start r.count = s'.memRead r.start r.count :=
    fun r hr => State.memRead_congr (hcells r hr)
  cases i with
  | a2h | acgen | acvfy | crc => simp [writeRanges] at hw
  | lfsr =>
    obtain rfl := List.mem_singleton.mp hw
    have ⟨hl, _, _, _⟩ := ha
    obtain ⟨hk, _⟩ := (lengthLegal_lfsr_iff s).mp hl
    refine ⟨_, rfl, ?_, length_lfsrEncode _ (State.length_memRead ..) (Nat.sub_pos_of_lt hk)⟩
    simp only [operandRegs, List.cons.injEq] at ho
    simp only [readRanges, forall_mem_pair, ho] at read
    simp only [committed, ho, read]
  | h2a | wht | uf13 | uf23 | f23g =>
    obtain rfl := List.mem_singleton.mp hw
    refine ⟨_, rfl, ?_, by simp⟩
    simp only [operandRegs, List.cons.injEq] at ho
    simp only [readRanges, List.forall_mem_singleton, ho] at read
    simp only [committed, ho, hp, read]

/-- The cells of the write range after an accepted request. -/
theorem cell_committed_congr {w : Range} (hw : w ∈ writeRanges i s) (ha : accepts i s) {a : Nat} (h : w.has a) :
    (committed i s).cell a = (committed i s').cell a := by
  obtain ⟨bits, hs, hs', hlen⟩ := committed_storing_congr hp ho hcells hw ha
  rw [hs, hs', State.cell_memWrite, State.cell_memWrite, if_pos (hlen ▸ h), if_pos (hlen ▸ h)]

end

/-- ACGEN's output depends on A0 and the parameters (R130). -/
theorem committed_acgen_congr {s s' : State} (hp : s.params = s'.params)
    (ho : operandRegs .acgen s = operandRegs .acgen s') : (committed .acgen s).ac = (committed .acgen s').ac := by
  have ha0 : s.a0 = s'.a0 := List.head_eq_of_cons_eq ho
  rw [committed, State.setAc_ac, hp, ha0, committed, State.setAc_ac]

end Sys2Proof.Machine

open Sys2Proof.Machine

/-- Settles O37: the checks by `requestFault_congr`, and the outputs by the three lemmas about `committed`. -/
theorem resultDependsOnOperandsOnly : Obligations.ResultDependsOnOperandsOnly := by
  intro i s s' hp ho hcells
  have haccepts := accepts_congr hp ho hcells
  refine ⟨haccepts, writeRanges_congr ho, ?_⟩
  by_cases ha : accepts i s
  · refine ⟨_, _, exec_of_accepts ha, exec_of_accepts (haccepts.mp ha), fun hr => absurd ha hr, fun _ =>
      ⟨committed_res_congr hp ho hcells, ?acgen, fun w hw a => cell_committed_congr hp ho hcells hw ha⟩⟩
    case acgen =>
      rintro rfl
      exact committed_acgen_congr hp ho
  · obtain ⟨c, hc, hc'⟩ := exec_rejected_congr hp ho hcells ha
    exact ⟨_, _, hc, hc', fun _ => ⟨c, rfl, rfl⟩, fun h => absurd h ha⟩
end

section
/-! The step on an issued word (R25, R89), and placing a word as the host's next move (log 1). -/

namespace Sys2Proof.Machine

/-- A write to CMD, register 8, is the same step as a command (R25). -/
theorem step_issue {s : State} {w : Word} {rest : List HostMove}
    (h : s.moves = .command w :: rest ∨ s.moves = .writeReg 8 w :: rest) :
    step s = issue w { s with moves := rest } := by
  obtain h | h := h <;> exact step_move h

/-- A 32-bit word is the word its own bits stand for (R80). -/
theorem wordOfBits_toNat (w : Word) : wordOfBits 32 w.toNat = w := by
  rw [wordOfBits, Nat.mod_eq_of_lt w.isLt, BitVec.ofNat_toNat, BitVec.setWidth_eq]

theorem step_withFetchWord (s : State) (w : Word) : step (s.withFetchWord 32 w.toNat) = issue w s := by
  rw [State.withFetchWord, wordOfBits_toNat]
  exact step_issue (.inl (s.issueNext_moves w))

end Sys2Proof.Machine

open Sys2Proof.Machine

/-- Settles O4: the cases of R89 by the lemmas about `issue`. -/
theorem stepRunsDecodedCommand : Obligations.StepRunsDecodedCommand := by
  intro s w rest h
  rw [step_issue h]
  exact ⟨fun halted => issue_halted (s := { s with moves := rest }) halted w,
    fun i running hw _ => issue_legal (s := { s with moves := rest }) running hw,
    fun running ⟨_, hw⟩ => issue_illegal (s := { s with moves := rest }) running hw, issue_eq_next w _⟩

/-- Settles O5: the placed word is issued, and it decodes to its command. -/
theorem placedWordRunsNext : Obligations.PlacedWordRunsNext := by
  intro s i running
  rw [step_withFetchWord, issue_legal running (decode_encode i)]
end

section
/-! Which host moves stop the machine (R62, R196; log 7): those that name a cell outside BM, and no others. -/

namespace Sys2Proof.Machine

theorem hostWriteReg_eq_next (n : Nat) (v : Word) (s : State) : ∃ t, hostWriteReg n v s = .next t := by
  unfold hostWriteReg
  split
  case h_7 => exact issue_eq_next v s
  all_goals exact ⟨_, rfl⟩

/-- A move that exists leads to a next state (R62, R196). -/
theorem performMove_of_wellFormed {m : HostMove} {s : State} (h : m.wellFormed s.params.nCells = true) :
    ∃ t, performMove m s = .next t := by
  cases m with
  | writeReg n v => exact hostWriteReg_eq_next n v s
  | command w => exact issue_eq_next w s
  | readReg | reset => exact ⟨_, rfl⟩
  | writeCell a v => exact ⟨_, performMove_writeCell_of_lt (of_decide_eq_true h) v⟩
  | readCell a => exact ⟨_, performMove_readCell_of_lt (of_decide_eq_true h)⟩

/-- The moves that do not exist are those of the cells outside BM (R62). -/
theorem not_wellFormed_iff (m : HostMove) (n : Nat) :
    ¬ m.wellFormed n = true ↔ ∃ a, n ≤ a ∧ (m = .readCell a ∨ ∃ v, m = .writeCell a v) := by
  cases m <;> simp [HostMove.wellFormed]

/-- A move that does not exist stops the machine (R196; log 7). -/
theorem performMove_of_not_wellFormed {m : HostMove} {s : State} (h : ¬ m.wellFormed s.params.nCells = true) :
    performMove m s = .fault .noSuchCell := by
  obtain ⟨a, ha, rfl | ⟨v, rfl⟩⟩ := (not_wellFormed_iff m _).mp h
  · exact if_neg ha.not_gt
  · exact if_neg ha.not_gt

/-- A step answers a next state, or the host's next move does not exist. -/
theorem step_outcomes (s : State) :
    ((∀ m rest, s.moves = m :: rest → m.wellFormed s.params.nCells = true) ∧ ∃ t, step s = .next t) ∨
      ((∃ m rest, s.moves = m :: rest ∧ ¬ m.wellFormed s.params.nCells = true) ∧ step s = .fault .noSuchCell) := by
  cases hm : s.moves with
  | nil => exact .inl ⟨nofun, s, step_idle hm⟩
  | cons m rest =>
    rw [step_move hm]
    by_cases hwf : m.wellFormed s.params.nCells = true
    · refine .inl ⟨fun _ _ h => ?_, performMove_of_wellFormed hwf⟩
      cases h
      exact hwf
    · exact .inr ⟨⟨m, rest, rfl, hwf⟩, performMove_of_not_wellFormed hwf⟩

/-- The next move does not exist: it names a cell outside BM. -/
theorem exists_not_wellFormed_iff (s : State) :
    (∃ m rest, s.moves = m :: rest ∧ ¬ m.wellFormed s.params.nCells = true) ↔
      ∃ a rest, s.params.nCells ≤ a ∧ (s.moves = .readCell a :: rest ∨ ∃ v, s.moves = .writeCell a v :: rest) := by
  simp only [not_wellFormed_iff]
  constructor
  · rintro ⟨m, rest, hm, a, ha, rfl | ⟨v, rfl⟩⟩
    · exact ⟨a, rest, ha, .inl hm⟩
    · exact ⟨a, rest, ha, .inr ⟨v, hm⟩⟩
  · rintro ⟨a, rest, ha, hm | ⟨v, hm⟩⟩
    · exact ⟨_, rest, hm, a, ha, .inl rfl⟩
    · exact ⟨_, rest, hm, a, ha, .inr ⟨v, rfl⟩⟩

end Sys2Proof.Machine

open Sys2Proof.Machine

/-- Settles O44: a step stops exactly when the host's next move does not exist. -/
theorem stepStopsOnlyOutsideMemory : Obligations.StepStopsOnlyOutsideMemory := by
  intro s
  rw [← exists_not_wellFormed_iff]
  obtain ⟨hwf, t, ht⟩ | ⟨hstop, hf⟩ := step_outcomes s
  · rw [ht]
    exact ⟨nofun, fun f => ⟨nofun, fun ⟨_, m, rest, hm, hn⟩ => absurd (hwf m rest hm) hn⟩⟩
  · rw [hf]
    refine ⟨nofun, fun f => ⟨fun h => ?_, fun ⟨h, _⟩ => h ▸ rfl⟩⟩
    cases h
    exact ⟨rfl, hstop⟩

/-- Settles O43: the step by `step_move`; a move that exists leads to a next state, and no effect of a move reaches the
list. -/
theorem movesAreCarriedOutInOrder : Obligations.MovesAreCarriedOutInOrder := by
  intro s m rest hm
  refine ⟨step_move hm, fun hwf => ?_⟩
  obtain ⟨t, ht⟩ := performMove_of_wellFormed (s := { s with moves := rest }) hwf
  exact ⟨t, (step_move hm).trans ht, (MoveEffect.of_performMove ht).moves_eq⟩

/-- Settles O42: with no move pending the step is idle. -/
theorem idleKeepsState : Obligations.IdleKeepsState := fun _ => step_idle
end

section
/-! Reset (R33, R210) and STATUS (R26) as the host sees them. -/

namespace Sys2Proof.Machine

/-- The three words of a zero Access Code are zero (R24). -/
theorem State.acWord_eq_zero {s : State} (h : s.ac = 0) (j : Nat) : s.acWord j = 0 := by
  unfold State.acWord
  rw [h]
  split <;> decide

/-- Every register reads 0 after a reset, whatever the reset count and the moves still to come (R33). -/
theorem hostReadReg_resetWith (p : Params) (k : Nat) (ms : List HostMove) (n : Nat) :
    hostReadReg n { State.resetWith p with resets := k, moves := ms } = 0 := by
  unfold hostReadReg
  split
  case h_9 | h_10 | h_11 => exact State.acWord_eq_zero rfl _
  all_goals rfl

theorem hostReadReg_seven_toNat (s : State) : (hostReadReg 7 s).toNat = s.err.toNat :=
  BitVec.toNat_setWidth_of_le (by decide)

/-- A register value below 16 has bits 31:4 zero. -/
theorem extractLsb'_four_eq_zero {v : Word} (h : v.toNat < 16) : v.extractLsb' 4 28 = 0 :=
  (zeroField_eq_zero_iff v).mpr (Nat.div_eq_of_lt h)

end Sys2Proof.Machine

open Sys2Proof Sys2Proof.Machine

/-- Settles O40: the reset state with the reset count one higher and the later moves. -/
theorem hostResetRestoresResetState : Obligations.HostResetRestoresResetState := by
  intro s rest h
  exact ⟨_, step_move h, fun n _ => hostReadReg_resetWith s.params (s.resets + 1) rest n, rfl, rfl, rfl, rfl,
    fun a => State.cell_hostReset { s with moves := rest } a⟩

/-- Settles O41: the fields by the definition of the reset state, the host's registers by `hostReadReg_resetWith`. -/
theorem resetValues : Obligations.ResetValues := by
  refine ⟨?_, rfl, rfl, rfl⟩
  rintro p _ rfl
  exact ⟨rfl, rfl, rfl, rfl, rfl, rfl, rfl, rfl, rfl, rfl, rfl, fun n _ => hostReadReg_resetWith p 0 [] n⟩

/-- Settles O45: the default parameters are legal. -/
theorem resetStateIsLegal : Obligations.ResetStateIsLegal :=
  ⟨State.inv_resetWith (by decide), fun _ => State.inv_resetWith⟩

/-- Settles O47: STATUS has the value of its four stored bits. -/
theorem statusReadsErrorCode : Obligations.StatusReadsErrorCode := by
  intro s
  have hread := hostReadReg_seven_toNat s
  refine ⟨hread, extractLsb'_four_eq_zero (hread ▸ s.err.isLt), fun ⟨_, _, herr⟩ => ?_⟩
  rw [hread]
  exact herr
end

section
/-! The whitening tables (R145): WHITEN_SEQ obeys the recurrence of x^7+x^4+1, each entry of WHITEN_IDX points at the
outputs that its key's register starts with, and seven outputs in a row determine the register. -/

namespace Sys2Proof.Machine

open Sys2Proof.Claims

/-- The entry of the default WHITEN_SEQ at an index that counts modulo 127 (R140, R141). -/
def whitenOutput (n : Nat) : Bool := Tables.defaults.whitenSeq.toList.getD (n % 127) false

/-- The entry of the default WHITEN_IDX for a key (R142). -/
def whitenKeyIndex (c : BitVec 6) : Nat := (Tables.defaults.whitenIdx.toList.getD c.toNat 0).val

/-- The register of R145 that puts out `y 0` to `y 6` next, bit 6 first: the outputs from `y 3` on have been added to
what came into bit 4. -/
def registerOfOutputs (y : Nat → Bool) : BitVec 7 :=
  .ofBoolListBE [y 0, y 1, y 2, y 3 ^^ y 0, y 4 ^^ y 1, y 5 ^^ y 2, y 6 ^^ y 3]

/-- The register puts out bit 6 (R145). -/
theorem getLsbD_six_registerOfOutputs (y : Nat → Bool) : (registerOfOutputs y).getLsbD 6 = y 0 := by
  have key : ∀ a b c d e f g : Bool, (BitVec.ofBoolListBE [a, b, c, d, e, f, g]).getLsbD 6 = a := by decide
  exact key ..

/-- A step of the register drops the output it has put out, when the outputs obey the recurrence of x^7+x^4+1. -/
theorem registerOfOutputs_succ {y : Nat → Bool} (h : y 7 = (y 4 ^^ y 0)) :
    registerOfOutputs (fun i => y (i + 1)) =
      (registerOfOutputs y <<< 1) ^^^ (if (registerOfOutputs y).getLsbD 6 then 0x11 else 0) := by
  have key : ∀ a b c d e f g : Bool,
      BitVec.ofBoolListBE [b, c, d, e ^^ b, f ^^ c, g ^^ d, (e ^^ a) ^^ e] =
        (BitVec.ofBoolListBE [a, b, c, d ^^ a, e ^^ b, f ^^ c, g ^^ d] <<< 1) ^^^ (if a then 0x11 else 0) := by
    decide
  rw [getLsbD_six_registerOfOutputs, registerOfOutputs, h]
  exact key ..

/-- The table as a sequence obeys the recurrence at every index of the table (R145). -/
theorem whitenOutput_recurrence_of_lt : ∀ k < 127, whitenOutput (k + 7) = (whitenOutput (k + 4) ^^ whitenOutput k) := by
  decide

theorem whitenOutput_mod_add (n j : Nat) : whitenOutput (n % 127 + j) = whitenOutput (n + j) := by
  rw [whitenOutput, Nat.mod_add_mod, whitenOutput]

theorem whitenOutput_recurrence (n : Nat) : whitenOutput (n + 7) = (whitenOutput (n + 4) ^^ whitenOutput n) := by
  have h := whitenOutput_recurrence_of_lt (n % 127) (Nat.mod_lt n (by decide))
  rwa [whitenOutput_mod_add, whitenOutput_mod_add, ← Nat.add_zero (n % 127), whitenOutput_mod_add] at h

/-- The register starts with the seven outputs from its key's index on (R142, R145). -/
theorem whitenRegister_zero (c : BitVec 6) :
    whitenRegister c 0 = registerOfOutputs fun i => whitenOutput (whitenKeyIndex c + i) := by
  revert c
  decide

/-- After t steps the register holds the seven outputs from t positions further on. -/
theorem whitenRegister_eq (c : BitVec 6) (t : Nat) :
    whitenRegister c t = registerOfOutputs fun i => whitenOutput (whitenKeyIndex c + t + i) := by
  induction t with
  | zero => exact whitenRegister_zero c
  | succ t ih =>
    calc whitenRegister c (t + 1)
        = registerOfOutputs fun i => whitenOutput (whitenKeyIndex c + t + (i + 1)) := by
          rw [registerOfOutputs_succ (y := fun i => whitenOutput (whitenKeyIndex c + t + i))
            (whitenOutput_recurrence _), ← ih, whitenRegister]
      _ = registerOfOutputs fun i => whitenOutput (whitenKeyIndex c + (t + 1) + i) := by
          simp only [Nat.add_assoc, Nat.add_comm 1]

end Sys2Proof.Machine

open Sys2Proof.Machine

/-- Settles O28: bit 6 of the register is the first of its seven outputs. -/
theorem whiteningTablesFollowRegister : Obligations.WhiteningTablesFollowRegister := by
  intro c t
  rw [whitenRegister_eq, getLsbD_six_registerOfOutputs]
  rfl
end
